-- ==== Sys2Proof/Config.lean ====
section
/-! DEFINITION. The constants of the built block (00_scope.md R8, 10_state.md R24). None is state: no request reads
or changes one. -/

namespace Sys2Proof.Config

/-- SUPPORTED_DATA_LENGTHS: the lengths ENC accepts (R8, R72). -/
def supportedDataLengths : List Nat := [8, 16, 32]

/-- PARITY_ITER_CAP: at most this many parity positions are inferred (R8, R79). The value and its reading are the
spec's decision D17; the decoder's functions take the cap as a parameter (I1, log 6), so that a claim about lengths
the cap can reach need not rest on 10. -/
def parityIterCap : Nat := 10

/-- LEN_W: the width of the request's length fields L and A (R8, D3). -/
def lenW : Nat := 6

/-- PAY_W: the width of the request's payload and of rdata (R8, D3). -/
def payW : Nat := 64

/-- MAX_CW_LEN: the longest codeword the encoder makes, 32 + 6 + 1 (R8, C5). -/
def maxCwLen : Nat := 39

end Sys2Proof.Config
end

