-- ==== Sys2Proof/Word.lean ====
section
/-! DEFINITION. The bit, the bit sequence and the request word (00_scope.md R9, R11). -/

namespace Sys2Proof

/-- A Bit, "a value in {0,1}" (R9): `true` is 1. -/
abbrev Bit := Bool

/-- A bit sequence: element 0 first (R9). -/
abbrev Bits := List Bit

/-- A request word REQ: 80 bits, bit 0 the least significant (R11, R41). -/
abbrev Request := BitVec 80

end Sys2Proof
end

