-- ==== Sys2Proof/Syntax.lean ====
section
/-! DEFINITION. The five operations of the block, one constructor per row of spec/opcode_table.json, each with the
operands R47 assembles for it. Lengths are naturals and sequences are lists, as at the functional level (R6, R10);
what the request word can carry is the check of WellFormed.lean. -/

namespace Sys2Proof

/-- One operation with its operands (R46, R47). -/
inductive Instr where
  /-- PCOUNT (R59): `dataLength`. -/
  | pcount (dataLength : Nat)
  /-- PPOS (R63): `p_sec` and `secLength`. -/
  | ppos (pSec secLength : Nat)
  /-- ENC (R67): the data vector. -/
  | enc (data : Bits)
  /-- ANALYZE (R76): the received codeword. -/
  | analyze (codeword : Bits)
  /-- CORRECT (R83): the received codeword. -/
  | correct (codeword : Bits)
deriving DecidableEq, Repr

/-- The operation's mnemonic, as spec/opcode_table.json and R46 spell it. -/
def Instr.mnemonic : Instr → String
  | .pcount _ => "PCOUNT"
  | .ppos _ _ => "PPOS"
  | .enc _ => "ENC"
  | .analyze _ => "ANALYZE"
  | .correct _ => "CORRECT"

end Sys2Proof
end

