-- ==== Sys2Proof/WellFormed.lean ====
section
/-! DEFINITION. Which operations a request word can carry: every length and number in 0..63 (R43, R44, R47, R57).
Nothing else is checked: ENC's lengths are the block's own check, not the word's (R57, R72). -/

namespace Sys2Proof

/-- A number that the fields L and A can hold: below 2^LEN_W (R43, R44, D3). -/
def fitsLen (n : Nat) : Bool := decide (n < 2 ^ Config.lenW)

/-- The operands fit the request word (R47: "The port can present only lengths 0..63"). -/
def Instr.wellFormed : Instr → Bool
  | .pcount m => fitsLen m
  | .ppos p n => fitsLen p && fitsLen n
  | .enc d => fitsLen d.length
  | .analyze c => fitsLen c.length
  | .correct c => fitsLen c.length

/-- `Instr.wellFormed` as a proposition. -/
abbrev Instr.WellFormed (i : Instr) : Prop := i.wellFormed = true

end Sys2Proof
end

