-- ==== Sys2Proof/Decode.lean ====
section
/-! DEFINITION. The request word's fields, the decoder, total on every 80-bit word, and the encoder
(30_encoding.md R41 to R50, R57). -/

namespace Sys2Proof

/-- `OP = REQ[3:0]` (R42). -/
def opField (q : Request) : Nat := (q.extractLsb' 0 4).toNat

/-- `L = REQ[9:4]` (R43). -/
def lenField (q : Request) : Nat := (q.extractLsb' 4 6).toNat

/-- `A = REQ[15:10]` (R44). -/
def auxField (q : Request) : Nat := (q.extractLsb' 10 6).toNat

/-- `PAYLOAD = REQ[79:16]` (R45). -/
def payloadField (q : Request) : Nat := (q.extractLsb' 16 64).toNat

/-- `seq(REQ, len)`: the first `len` payload bits, element `i` being `REQ[16+i]` (R45, R26, R27). -/
def payloadSeq (q : Request) (len : Nat) : Bits := (List.range len).map fun i => q.getLsbD (16 + i)

/-- Why a request word selects no operation. -/
inductive Reject where
  /-- `OP` is 5..15 (R49). Raised by `decode`; the step answers it with ILLEGAL_REQUEST (R98). Safe. -/
  | reservedOp (op : Nat)
deriving DecidableEq, Repr

/-- The decode of R46 with the operand assembly of R47. The bits of R48 are not read. -/
def decode (q : Request) : Except Reject Instr :=
  match opField q with
  | 0 => .ok (.pcount (lenField q))
  | 1 => .ok (.ppos (lenField q) (auxField q))
  | 2 => .ok (.enc (payloadSeq q (lenField q)))
  | 3 => .ok (.analyze (payloadSeq q (lenField q)))
  | 4 => .ok (.correct (payloadSeq q (lenField q)))
  | op => .error (.reservedOp op)

/-- One row of spec/opcode_table.json: a word is the row's when `REQ & mask = match` (R46). -/
structure OpRow where
  /-- The row's mnemonic. -/
  mnemonic : String
  /-- The row's `match`. -/
  matchBits : Request
  /-- The row's `mask`. -/
  mask : Request
deriving DecidableEq, Repr

/-- spec/opcode_table.json, row by row. -/
def opTable : List OpRow :=
  [⟨"PCOUNT", 0x0, 0xF⟩, ⟨"PPOS", 0x1, 0xF⟩, ⟨"ENC", 0x2, 0xF⟩, ⟨"ANALYZE", 0x3, 0xF⟩, ⟨"CORRECT", 0x4, 0xF⟩]

/-- The word is one of the row's. -/
def OpRow.selects (r : OpRow) (q : Request) : Bool := q &&& r.mask == r.matchBits

/-- A bit sequence as a number: element `i` has weight `2^i` (R26, R27). -/
def bitsToNat : Bits → Nat
  | [] => 0
  | b :: bs => b.toNat + 2 * bitsToNat bs

/-- `REQ = PAYLOAD * 2^16 + A * 2^10 + L * 2^4 + OP` (R41). -/
def packRequest (payload a l op : Nat) : Request :=
  BitVec.ofNat 80 (payload * 2 ^ 16 + a * 2 ^ 10 + l * 2 ^ 4 + op)

/-- The `OP` value of an operation (R46). -/
def Instr.opcode : Instr → Nat
  | .pcount _ => 0
  | .ppos _ _ => 1
  | .enc _ => 2
  | .analyze _ => 3
  | .correct _ => 4

/-- The word of a well-formed operation; every ignored field is zero (R57). -/
def encode (i : Instr) : Request :=
  match i with
  | .pcount m => packRequest 0 0 m i.opcode
  | .ppos p n => packRequest 0 n p i.opcode
  | .enc d => packRequest (bitsToNat d) 0 d.length i.opcode
  | .analyze c => packRequest (bitsToNat c) 0 c.length i.opcode
  | .correct c => packRequest (bitsToNat c) 0 c.length i.opcode

/-- The host's reading of one opcode-table word: `w`'s low `nbits` bits, every bit above them zero, given to `decode`.
A request is one 80-bit word with no bytes in it (R25, R50), so no byte order enters (log 11). -/
def tableRequest (nbits w : Nat) : Request := BitVec.ofNat 80 (w % 2 ^ nbits)

/-- The operation the decoder reads from an opcode-table word, none where it rejects. -/
def decodeTableWord (nbits w : Nat) : Option Instr :=
  match decode (tableRequest nbits w) with
  | .ok i => some i
  | .error _ => none

end Sys2Proof
end

