-- ==== Sys2Proof/Machine/State.lean ====
section
/-! DEFINITION. The state, the response bundle, and the reasons a step can stop. The block itself holds no state
(10_state.md R15 to R23); State holds the two lists of R22's run, which are the environment's: the requests it still
presents and the responses it has received (log 1). -/

namespace Sys2Proof.Machine

/-- The response bundle (30_encoding.md R51): eight output fields of fixed width. -/
structure Response where
  /-- 0 OK, 1 INVALID_LENGTH, 2 ILLEGAL_REQUEST (R52). -/
  status : BitVec 2
  /-- The classification code (R54). -/
  cls : BitVec 2
  /-- 1 iff overallParityOdd (R81). -/
  ovp : BitVec 1
  /-- A number of parity bits, unsigned. -/
  psec : BitVec 3
  /-- The syndrome, unsigned (R80). -/
  syn : BitVec 6
  /-- The CORRECT position, two's complement (R53). -/
  pos : BitVec 8
  /-- The length of the sequence in `rdata` (R55). -/
  rlen : BitVec 6
  /-- A codeword or a position mask (R55). -/
  rdata : BitVec 64
deriving DecidableEq, Repr

/-- The bundle with every field zero: what an operation does not write stays so (R56). -/
def Response.zero : Response :=
  { status := 0, cls := 0, ovp := 0, psec := 0, syn := 0, pos := 0, rlen := 0, rdata := 0 }

/-- The two errors of the block (60_exceptions.md R97, R98), each a response value and never a trap (R96). -/
inductive Error where
  /-- ENC was given a length other than 8, 16 and 32 (R72, R97). -/
  | invalidLength
  /-- A reserved OP (R49, R98). -/
  | illegalRequest
deriving DecidableEq, Repr

/-- The four decode classifications (R54, R99): outcomes, not errors. -/
inductive Classification where
  | noError
  | singleErrorCorrected
  | doubleErrorDetected
  | uncorrectable
deriving DecidableEq, Repr

/-- The state of a run of the block (R22, R118). The block adds nothing to it: its architectural state is the empty
record. -/
structure State where
  /-- The requests still to be answered, oldest first; the head is the one presented now. -/
  requests : List Request
  /-- The responses produced so far, oldest first. -/
  responses : List Response
deriving DecidableEq, Repr

/-- Faults: none. The block has no trap and no stuck state; every error is a response (R96, R102; log 13). -/
inductive Fault : Type
deriving DecidableEq, Repr

/-- Why a step gives no next state although the block knows no trap: the model is asked something outside the block's
domain. -/
inductive Refusal where
  /-- An instruction without a meaning yet. Raised by no arm of this model's dispatch. Safe. -/
  | notModelled (mnemonic : String)
  /-- No request is presented: the spec gives no response for that (R111), and a run has ended (R118). Raised by
  `step`. Safe (log 2). -/
  | noRequestPresented
  /-- An operand no request word can carry, a length or a number of 64 or more (R47, I9). Raised by `serve`, never on
  an instruction that `decode` gave. Safe (log 4). -/
  | notExpressible
deriving DecidableEq, Repr

/-- No state to reset (R23, R110): no request is presented and no response exists yet (R111, D19). Both empty lists
are the model's choice (DESIGN CHOICE, log 3). -/
def State.reset : State := { requests := [], responses := [] }

end Sys2Proof.Machine
end

