-- ==== Sys2Proof/Machine/Operands.lean ====
section
/-! DEFINITION. Bit sequences as operands: positions, flips, the split of a received codeword, counting
(00_scope.md R9, R10, R13). -/

namespace Sys2Proof.Machine

/-- `c.pos(j) = c.at(j-1)`, the bit at 1-indexed position `j` (R9). Outside `1..len(c)` the spec defines nothing and
no rule reads there; the model reads 0 (log 8). -/
def bitAt (c : Bits) (j : Nat) : Bit :=
  match j with
  | 0 => false
  | k + 1 => c.getD k false

/-- `c.pos(j) <- b` (R9). Outside `1..len(c)` nothing is written (log 8). -/
def setAt (c : Bits) (j : Nat) (b : Bit) : Bits :=
  match j with
  | 0 => c
  | k + 1 => c.set k b

/-- `flip(c, i)`: position `i` inverted, every other position unchanged (R13). -/
def flipAt (c : Bits) (i : Nat) : Bits := setAt c i (!bitAt c i)

/-- The positions `1..n` in ascending order (R9). -/
def positionsUpTo (n : Nat) : List Nat := List.range' 1 n

/-- `ones(s)`: the number of elements equal to 1 (R9). -/
def ones (s : Bits) : Nat := s.count true

/-- `init(c)`, the secPart of a received codeword (R9, R78). R9 defines it for `len(c) ≥ 1` only; the model gives the
empty sequence for the empty one, and no operation goes there (DESIGN CHOICE, log 8). -/
def secPart (c : Bits) : Bits := c.dropLast

/-- `last(c)`, the overall parity bit of a received codeword (R9, R78). R9 defines it for `len(c) ≥ 1` only; the model
gives 0 for the empty sequence, and no operation goes there (DESIGN CHOICE, log 8). -/
def overallBit (c : Bits) : Bit := bitAt c c.length

/-- Elementwise exclusive or of two sequences of one length (R75). Of two lengths, which no rule combines, the shorter
one's is given (DESIGN CHOICE, log 8). -/
def xorBits (a b : Bits) : Bits := List.zipWith xor a b

end Sys2Proof.Machine
end

