-- ==== Sys2Proof/Machine/Flags.lean ====
section
/-! DEFINITION. The flag-like outputs of a response and their codes (10_state.md R17: none is stored): parity,
status, classification. -/

namespace Sys2Proof.Machine

/-- A count is odd iff `count mod 2 = 1` (R10). -/
def odd (n : Nat) : Bit := decide (n % 2 = 1)

/-- overallParityOdd: the number of 1-bits of the ENTIRE input is odd (R81). -/
def overallParityOdd (c : Bits) : Bool := odd (ones c)

/-- Status OK (R52). -/
def statusOk : BitVec 2 := 0

/-- The status code of an error (R52). -/
def errorStatus : Error → BitVec 2
  | .invalidLength => 1
  | .illegalRequest => 2

/-- The `cls` code of a classification (R54). -/
def classCode : Classification → BitVec 2
  | .noError => 0
  | .singleErrorCorrected => 1
  | .doubleErrorDetected => 2
  | .uncorrectable => 3

/-- The `ovp` bit: 1 iff the parity is odd (R51, R76). -/
def ovpBit (p : Bool) : BitVec 1 := BitVec.ofBool p

end Sys2Proof.Machine
end

