-- ==== Sys2Proof/Machine/Ops.lean ====
section
/-! DEFINITION. The operations every meaning shares: writing the response fields, raising an error, and answering a
request (00_scope.md R12, 30_encoding.md R51 to R56). -/

namespace Sys2Proof.Machine

/-- `rlen` for a returned sequence (R55). -/
def lengthField (c : Bits) : BitVec 6 := BitVec.ofNat 6 c.length

/-- `rdata` for a returned codeword: bit `j-1` is position `j`, every bit above is 0 (R55, R27). -/
def codewordData (c : Bits) : BitVec 64 := BitVec.ofNat 64 (bitsToNat c)

/-- `rdata` for a returned position sequence: bit `k` is 1 iff `2^k` is an element (R55). -/
def positionMask (ps : List Nat) : BitVec 64 :=
  codewordData ((List.range Config.payW).map fun k => decide (2 ^ k ∈ ps))

/-- `pos = tc_8(position)` (R53, R11). -/
def positionField (x : Int) : BitVec 8 := BitVec.ofInt 8 x

/-- `raise E`: the response carries status `E` and every other field is zero; nothing is saved and nothing traps
(R12, R56, R96). -/
def raiseError (e : Error) : Response := { Response.zero with status := errorStatus e }

/-- One response is produced, after those before it (R22, R29). -/
def State.answer (s : State) (r : Response) : State := { s with responses := s.responses ++ [r] }

/-- Answer an operation with its response, where a request word can carry the operation (R47); otherwise refuse by
name (I9: `refuse` at the port; log 4). -/
def serve (i : Instr) (r : Response) (s : State) : Host.Outcome State Fault Refusal :=
  if i.wellFormed then .next (s.answer r) else .refused .notExpressible

end Sys2Proof.Machine
end

