-- ==== Sys2Proof/Machine/Layout.lean ====
section
/-! DEFINITION. Sub-block `parity_layout_calculator` (40_parity_layout.md): the functions parityCount and
parityPositions, and the operations PCOUNT and PPOS. -/

namespace Sys2Proof.Machine

/-- The loop of R60 from `p` on, at most `fuel` increments. -/
def parityCountFrom (m : Nat) : (fuel p : Nat) → Nat
  | 0, p => p
  | fuel + 1, p => if 2 ^ p ≥ m + p + 1 then p else parityCountFrom m fuel (p + 1)

/-- `parityCount(m)`: the smallest `p` with `2^p ≥ m + p + 1` (R60). The loop makes at most `m + 1` increments (R61),
so the bound on the increments is never what ends it (DEDUCED, log 5). -/
def parityCount (m : Nat) : Nat := parityCountFrom m (m + 1) 0

/-- `2^k, 2^(k+1), …`, at most `count` of them, ending before the first that exceeds `n`: the loop R62 and R79
share. -/
def powersUpTo (n : Nat) : (count k : Nat) → List Nat
  | 0, _ => []
  | count + 1, k => if 2 ^ k > n then [] else 2 ^ k :: powersUpTo n count (k + 1)

/-- `parityPositions(p, n)`, with its early stop (R62). -/
def parityPositions (p n : Nat) : List Nat := powersUpTo n p 0

/-- The response of PCOUNT (R59). -/
def pcountResponse (m : Nat) : Response :=
  { Response.zero with status := statusOk, psec := BitVec.ofNat 3 (parityCount m) }

/-- PCOUNT: parity bit count (R59). -/
def execPcount (m : Nat) (s : State) : Host.Outcome State Fault Refusal :=
  serve (.pcount m) (pcountResponse m) s

/-- The response of PPOS (R63). -/
def pposResponse (p n : Nat) : Response :=
  let ps := parityPositions p n
  { Response.zero with status := statusOk, psec := BitVec.ofNat 3 ps.length, rdata := positionMask ps }

/-- PPOS: parity position sequence (R63). -/
def execPpos (p n : Nat) (s : State) : Host.Outcome State Fault Refusal :=
  serve (.ppos p n) (pposResponse p n) s

end Sys2Proof.Machine
end

