-- ==== Sys2Proof/Machine/Decoder.lean ====
section
/-! DEFINITION. Sub-block `hamming_sec_ded_decoder` (42_decoder.md): the functions `analyze` and `correct` in the
source's steps, and the operations ANALYZE and CORRECT. Each function is given for every PARITY_ITER_CAP (I1, log 6);
the operations take the block's. -/

namespace Sys2Proof.Machine

/-- What `analyze` returns (R82). -/
structure Analysis where
  /-- The syndrome `S` (R80). -/
  syndrome : Nat
  /-- overallParityOdd, `P` (R81). -/
  parityOdd : Bool
  /-- `p_sec`, the number of inferred positions (R82). -/
  pSec : Nat
  /-- The inferred positions, ascending (R79). -/
  positions : List Nat
deriving DecidableEq, Repr

/-- The inferred parity positions of a secPart of length `len`: `2^k` for `k = 0, 1, …` while `2^k ≤ len` and
`k < cap` (R79, D17). -/
def inferredPositions (cap len : Nat) : List Nat := powersUpTo len cap 0

/-- The decoder's count at a parity position `q` (R80): the positions `j`, `q` itself among them, whose AND with `q` is
nonzero and that hold a 1. -/
def checkCount (sec : Bits) (q : Nat) : Nat :=
  (positionsUpTo sec.length).countP fun j => (j &&& q != 0) && bitAt sec j

/-- The syndrome (R80): the sum of the positions whose count is odd. -/
def syndromeOf (ps : List Nat) (sec : Bits) : Nat := (ps.filter fun q => odd (checkCount sec q)).sum

/-- `analyze(c)` under a cap (R77 to R82). -/
def analyzeWith (cap : Nat) (c : Bits) : Analysis :=
  if c.length = 0 then { syndrome := 0, parityOdd := false, pSec := 0, positions := [] }
  else
    let sec := secPart c
    let ps := inferredPositions cap sec.length
    { syndrome := syndromeOf ps sec, parityOdd := overallParityOdd c, pSec := ps.length, positions := ps }

/-- `analyze(c)` (R76). -/
def analyzeCodeword (c : Bits) : Analysis := analyzeWith Config.parityIterCap c

/-- The response of ANALYZE (R76). -/
def analyzeResponse (c : Bits) : Response :=
  let a := analyzeCodeword c
  { Response.zero with
    status := statusOk, syn := BitVec.ofNat 6 a.syndrome, ovp := ovpBit a.parityOdd,
    psec := BitVec.ofNat 3 a.pSec, rdata := positionMask a.positions }

/-- ANALYZE: syndrome analysis (R76). -/
def execAnalyze (c : Bits) (s : State) : Host.Outcome State Fault Refusal :=
  serve (.analyze c) (analyzeResponse c) s

/-- What `correct` returns: (correctedCodeword, classification, positionOrSyndrome) (R83). -/
structure Correction where
  /-- The corrected codeword, or the original. -/
  codeword : Bits
  /-- The classification (R99). -/
  classification : Classification
  /-- positionOrSyndrome, at least -1 (R10). -/
  position : Int
deriving DecidableEq, Repr

/-- R87's branch for a syndrome `S` inside the secPart: flip, re-run `analyze` as a verification, and fall back to the
ORIGINAL codeword where the re-check fails. -/
def verifiedFlip (cap : Nat) (c : Bits) (S : Nat) : Correction :=
  let c2 := flipAt c S
  let a2 := analyzeWith cap c2
  if a2.syndrome = 0 ∧ a2.parityOdd = false then
    { codeword := c2, classification := .singleErrorCorrected, position := S }
  else { codeword := c, classification := .uncorrectable, position := S }

/-- `correct(c)` under a cap (R84 to R90), in the source's order of tests (R101). -/
def correctWith (cap : Nat) (c : Bits) : Correction :=
  if c.length = 0 then { codeword := c, classification := .uncorrectable, position := -1 }
  else
    let a := analyzeWith cap c
    match decide (a.syndrome = 0), a.parityOdd with
    | true, false => { codeword := c, classification := .noError, position := 0 }
    | true, true =>
      { codeword := flipAt c c.length, classification := .singleErrorCorrected, position := c.length }
    | false, true =>
      if 0 < a.syndrome ∧ a.syndrome ≤ c.length - 1 then verifiedFlip cap c a.syndrome
      else { codeword := c, classification := .uncorrectable, position := a.syndrome }
    | false, false => { codeword := c, classification := .doubleErrorDetected, position := -1 }

/-- `correct(c)` (R83). -/
def correctCodeword (c : Bits) : Correction := correctWith Config.parityIterCap c

/-- The response of CORRECT (R83). -/
def correctResponse (c : Bits) : Response :=
  let x := correctCodeword c
  { Response.zero with
    status := statusOk, cls := classCode x.classification, pos := positionField x.position,
    rlen := lengthField x.codeword, rdata := codewordData x.codeword }

/-- CORRECT: classify and correct (R83). -/
def execCorrect (c : Bits) (s : State) : Host.Outcome State Fault Refusal :=
  serve (.correct c) (correctResponse c) s

end Sys2Proof.Machine
end

