-- ==== Sys2Proof/Machine/Encoder.lean ====
section
/-! DEFINITION. Sub-block `hamming_sec_ded_encoder` (41_encoder.md): the function `encode`, here `encodeData`, in the
source's steps, and the operation ENC. -/

namespace Sys2Proof.Machine

/-- Step 2 (R68): walk the positions in ascending order; a parity position of `ps` keeps its allocated bit `fill j`,
every other position takes the next data element. -/
def placeData (ps : List Nat) (fill : Nat → Bit) : List Nat → Bits → Bits
  | [], _ => []
  | j :: js, d =>
    if j ∈ ps then fill j :: placeData ps fill js d
    else d.headD false :: placeData ps fill js d.tail

/-- Step 3's count (R70): the positions `j ≠ q` whose AND with `q` is nonzero and that hold a 1. -/
def coverCount (c : Bits) (q : Nat) : Nat :=
  (positionsUpTo c.length).countP fun j => j != q && (j &&& q != 0) && bitAt c j

/-- Step 3 at one parity position (R70): 1 if the count is odd, else 0. -/
def writeParity (c : Bits) (q : Nat) : Bits := setAt c q (odd (coverCount c q))

/-- The SEC codeword of a data vector of any length (R68, R70), with what the parity positions hold before step 3 as a
parameter (I12, log 7). -/
def secCodeword (fill : Nat → Bit) (d : Bits) : Bits :=
  let p := parityCount d.length
  let n := d.length + p
  let ps := parityPositions p n
  ps.foldl writeParity (placeData ps fill (positionsUpTo n) d)

/-- Step 4 (R71): the overall parity bit is appended. -/
def appendOverall (c : Bits) : Bits := c ++ [odd (ones c)]

/-- The SEC-DED codeword of a data vector of any length: steps 1 to 4 without the length check. -/
def codewordWith (fill : Nat → Bit) (d : Bits) : Bits := appendOverall (secCodeword fill d)

/-- The SEC-DED codeword with the parity positions allocated as 0 (R68). -/
def codewordOf (d : Bits) : Bits := codewordWith (fun _ => false) d

/-- `encode(d)`: the length check comes before every other step (R72). -/
def encodeData (d : Bits) : Except Error Bits :=
  if d.length ∈ Config.supportedDataLengths then .ok (codewordOf d) else .error .invalidLength

/-- The response of ENC (R67), or the error it raises (R72, R97). -/
def encResponse (d : Bits) : Response :=
  match encodeData d with
  | .ok c => { Response.zero with status := statusOk, rlen := lengthField c, rdata := codewordData c }
  | .error e => raiseError e

/-- ENC: encode a data vector (R67). -/
def execEnc (d : Bits) (s : State) : Host.Outcome State Fault Refusal :=
  serve (.enc d) (encResponse d) s

end Sys2Proof.Machine
end

