-- ==== Sys2Proof/Machine/Dispatch.lean ====
section
/-! DEFINITION. The dispatch: one arm per operation (30_encoding.md R46). -/

namespace Sys2Proof.Machine

/-- The effect of one operation: the response it produces (R46). -/
def exec (i : Instr) (s : State) : Host.Outcome State Fault Refusal :=
  match i with
  | .pcount m => Sys2Proof.Machine.execPcount m s
  | .ppos p n => Sys2Proof.Machine.execPpos p n s
  | .enc d => Sys2Proof.Machine.execEnc d s
  | .analyze c => Sys2Proof.Machine.execAnalyze c s
  | .correct c => Sys2Proof.Machine.execCorrect c s

end Sys2Proof.Machine
end

