-- ==== Sys2Proof/Machine/Step.lean ====
section
/-! DEFINITION. One step: the request presented now is consumed whole, decoded and answered
(10_state.md R22, 20_memory.md R29, 30_encoding.md R46). -/

namespace Sys2Proof.Machine

/-- One step. A reserved OP is answered with ILLEGAL_REQUEST, before anything else of the word is looked at (R49,
R101). With no request presented there is nothing to answer (R111, R118; log 2). -/
def step (s : State) : Host.Outcome State Fault Refusal :=
  match s.requests with
  | [] => .refused .noRequestPresented
  | q :: rest =>
    match decode q with
    | .ok i => exec i { s with requests := rest }
    | .error _ => .next (State.answer { s with requests := rest } (raiseError .illegalRequest))

/-- Present one opcode-table word as the very next request (R22: "the environment presents requests in its own
order"); the requests already waiting come after it (log 11). -/
def State.withFetchWord (s : State) (nbits w : Nat) : State :=
  { s with requests := tableRequest nbits w :: s.requests }

end Sys2Proof.Machine
end

