-- ==== Sys2Proof/Machine/Assembler.lean ====
section
/-! DEFINITION. The assembler syntax (30_encoding.md R57, D22): one request per line, a mnemonic, its operands, an
optional comment after `;`, and the one directive `.req80`. What R57 leaves to the reader (blanks, where one is needed,
the forms of numbers, letter case) is log 10. -/

namespace Sys2Proof.Machine

/-- A line: an operation, or a raw word (R57). -/
inductive AsmLine where
  | operation (i : Instr)
  | req80 (w : Request)
deriving DecidableEq, Repr

/-- The request word of a line; every ignored field of an operation is zero (R57). -/
def AsmLine.assemble : AsmLine → Request
  | .operation i => encode i
  | .req80 w => w

/-- A token of a line. -/
inductive AsmToken where
  | word (cs : List Char)
  | comma
  | bitString (b : Bits)
deriving DecidableEq, Repr

/-- What the lexer is inside of. -/
inductive LexMode where
  | between
  | inWord (acc : List Char)
  | inBits (acc : Bits)
deriving DecidableEq, Repr

/-- The double quote. -/
def quoteChar : Char := Char.ofNat 34

/-- Space, tab and carriage return separate tokens (log 10). -/
def isBlankChar (c : Char) : Bool := c = ' ' || c = '\t' || c = '\r'

/-- The tokens of a line, none where a quoted string holds anything but 0 and 1 or does not end. The leftmost
character is element 0 (R14). A comment begins at `;`. R57 does not say where blanks are needed: the model needs none
between a mnemonic and a quoted string (`ENC"101"` is a line), and takes any number of them, none included, on either
side of a comma (DESIGN CHOICE, log 10). -/
def lexLine : LexMode → List Char → Option (List AsmToken)
  | .between, [] => some []
  | .inWord acc, [] => some [.word acc]
  | .inBits _, [] => none
  | .between, c :: cs =>
    if c = ';' then some []
    else if isBlankChar c then lexLine .between cs
    else if c = ',' then (lexLine .between cs).map (AsmToken.comma :: ·)
    else if c = quoteChar then lexLine (.inBits []) cs
    else lexLine (.inWord [c]) cs
  | .inWord acc, c :: cs =>
    if c = ';' then some [.word acc]
    else if isBlankChar c then (lexLine .between cs).map (AsmToken.word acc :: ·)
    else if c = ',' then (lexLine .between cs).map (AsmToken.word acc :: AsmToken.comma :: ·)
    else if c = quoteChar then (lexLine (.inBits []) cs).map (AsmToken.word acc :: ·)
    else lexLine (.inWord (acc ++ [c])) cs
  | .inBits acc, c :: cs =>
    if c = '0' then lexLine (.inBits (acc ++ [false])) cs
    else if c = '1' then lexLine (.inBits (acc ++ [true])) cs
    else if c = quoteChar then (lexLine .between cs).map (AsmToken.bitString acc :: ·)
    else none

/-- The value of a digit in a base up to 16; both cases of the hexadecimal letters (log 10). -/
def digitValue (base : Nat) (c : Char) : Option Nat :=
  let n := c.toNat
  let v := if 48 ≤ n ∧ n ≤ 57 then some (n - 48)
    else if 97 ≤ n ∧ n ≤ 102 then some (n - 87)
    else if 65 ≤ n ∧ n ≤ 70 then some (n - 55)
    else none
  v.filter (· < base)

/-- Digits read in a base, most significant first, onto what is read already. -/
def digitsFrom (base : Nat) : Nat → List Char → Option Nat
  | v, [] => some v
  | v, c :: cs =>
    match digitValue base c with
    | some x => digitsFrom base (v * base + x) cs
    | none => none

/-- A number: decimal, or hexadecimal with `0x` (R57); at least one digit. Leading zeros are taken and the prefix `0X` is
not (DESIGN CHOICE, log 10). -/
def parseNumber : List Char → Option Nat
  | [] => none
  | '0' :: 'x' :: [] => none
  | '0' :: 'x' :: cs => digitsFrom 16 0 cs
  | cs => digitsFrom 10 0 cs

/-- A number of 0..63 (R57). -/
def parseLen (cs : List Char) : Option Nat := (parseNumber cs).filter fitsLen

/-- A bit string of 0 to 63 characters (R57). -/
def checkedBits (b : Bits) : Option Bits := if fitsLen b.length then some b else none

/-- A line's tokens as a line (R57). ENC's lengths are not checked. Mnemonics are in capitals only
(DESIGN CHOICE, log 10), and a `.req80` number is that of an 80-bit word (DEDUCED, log 10). -/
def parseTokens : List AsmToken → Option AsmLine
  | [.word w, .word m] =>
    if w = "PCOUNT".toList then (parseLen m).map fun n => .operation (.pcount n)
    else if w = ".req80".toList then
      ((parseNumber m).filter (· < 2 ^ 80)).map fun n => .req80 (BitVec.ofNat 80 n)
    else none
  | [.word w, .word p, .comma, .word n] =>
    if w = "PPOS".toList then
      match parseLen p, parseLen n with
      | some p, some n => some (.operation (.ppos p n))
      | _, _ => none
    else none
  | [.word w, .bitString b] =>
    if w = "ENC".toList then (checkedBits b).map fun b => .operation (.enc b)
    else if w = "ANALYZE".toList then (checkedBits b).map fun b => .operation (.analyze b)
    else if w = "CORRECT".toList then (checkedBits b).map fun b => .operation (.correct b)
    else none
  | _ => none

/-- A line of text as a line, none where it is not one (an empty line holds no request). -/
def parseLine (cs : List Char) : Option AsmLine :=
  match lexLine .between cs with
  | some ts => parseTokens ts
  | none => none

end Sys2Proof.Machine
end

