-- ==== Sys2Proof/Machine/CellStore.lean ====
section
/-! DEFINITION. The harness's Cell Store (20_memory.md R37 to R40). It is OUTSIDE the block (00_scope.md R7, D21): no
field of State holds it and no step reads it. It is written down as functions on plain data because the source states
its properties through error injection (R5, R13). Where the source gives no result for an empty slot (N11) the answer
is `unstated`, a result of its own and never one of the named errors (log 9). -/

namespace Sys2Proof.Machine

/-- A Codeword Cell (20_memory.md section 4). What the error annotation holds is not in the source (N11), so its type
is a parameter. -/
structure CodewordCell (Note : Type) where
  /-- The original data vector. -/
  originalData : Bits
  /-- The original SEC-DED codeword. -/
  original : Bits
  /-- The current, possibly corrupted codeword. -/
  current : Bits
  /-- The optional error annotation. -/
  annotation : Option Note
deriving DecidableEq, Repr

/-- The store: STORE_SIZE slots, each empty or holding a cell. STORE_SIZE is open (D21) and is the list's length. -/
abbrev CellStore (Note : Type) := List (Option (CodewordCell Note))

/-- The store's own errors (R100): "store-layer misuse", never errors of the block. -/
inductive StoreError where
  /-- An address outside `[0, size)` (R37, R40). -/
  | invalidAddress
  /-- A position outside `[1, len(codeword)]` (R37). -/
  | invalidPosition
  /-- Named by R40; when it is given is not in the source (N11), and no function here answers it. -/
  | noOriginal
deriving DecidableEq, Repr

/-- What a store action answers. -/
inductive StoreResult (α : Type) where
  /-- It succeeds. -/
  | done (a : α)
  /-- It fails with an error the source names for this case. -/
  | failed (e : StoreError)
  /-- The source gives no answer: an in-range but empty slot (N11, I5). -/
  | unstated
deriving DecidableEq, Repr

/-- The slot at an address: none outside `[0, size)`. -/
def slotOf {Note : Type} (st : CellStore Note) (a : Int) : Option (Option (CodewordCell Note)) :=
  if a < 0 then none else st[a.toNat]?

/-- The store with one slot filled. -/
def putCell {Note : Type} (st : CellStore Note) (a : Int) (x : CodewordCell Note) : CellStore Note :=
  st.set a.toNat (some x)

/-- A store of `size` empty slots. -/
def emptyStore (Note : Type) (size : Nat) : CellStore Note := List.replicate size none

/-- `write(address, data, codeword)` (R38): false and nothing written outside `[0, size)`. Whether the codeword is the
data's encoding is not checked. The new cell has no annotation (log 9). -/
def storeWrite {Note : Type} (st : CellStore Note) (a : Int) (data codeword : Bits) : Bool × CellStore Note :=
  match slotOf st a with
  | none => (false, st)
  | some _ =>
    (true, putCell st a { originalData := data, original := codeword, current := codeword, annotation := none })

/-- `read(address)` (R39): absent if the slot is empty or out of range. -/
def storeRead {Note : Type} (st : CellStore Note) (a : Int) : Option (CodewordCell Note) := (slotOf st a).join

/-- `flipBit(address, i)` (R37): the current codeword only is changed, and the annotation is kept (log 9). R37 names
InvalidAddress and InvalidPosition and gives no order; the model looks at the address first, so an address out of range
answers InvalidAddress and an empty slot `unstated` whatever the position is (DESIGN CHOICE, log 9). -/
def storeFlipBit {Note : Type} (st : CellStore Note) (a i : Int) : StoreResult (CellStore Note) :=
  match slotOf st a with
  | none => .failed .invalidAddress
  | some none => .unstated
  | some (some x) =>
    if 1 ≤ i ∧ i ≤ x.current.length then .done (putCell st a { x with current := flipAt x.current i.toNat })
    else .failed .invalidPosition

/-- `restore(address)` (R40): the current codeword becomes the original, and the annotation is cleared. -/
def storeRestore {Note : Type} (st : CellStore Note) (a : Int) : StoreResult (CellStore Note) :=
  match slotOf st a with
  | none => .failed .invalidAddress
  | some none => .unstated
  | some (some x) => .done (putCell st a { x with current := x.original, annotation := none })

end Sys2Proof.Machine
end

