-- ==== Sys2Proof/Safety.lean ====
section
/-! DEFINITION. What claims about the block are stated in: the spec's total function from a request to its response
(10_state.md R22), the words that differ only in ignored bits (R48), and what every produced response looks like
(30_encoding.md R51 to R56). -/

namespace Sys2Proof.Machine

/-- The response an operation's rule gives (R59, R63, R67, R76, R83). -/
def instrResponse : Instr → Response
  | .pcount m => pcountResponse m
  | .ppos p n => pposResponse p n
  | .enc d => encResponse d
  | .analyze c => analyzeResponse c
  | .correct c => correctResponse c

/-- The spec's `step : Request -> Response` (R22, R46). -/
def portResponse (q : Request) : Response :=
  match decode q with
  | .ok i => instrResponse i
  | .error _ => raiseError .illegalRequest

/-- The state after one request is answered: it is consumed and its response stands last (R22, R29). -/
def State.after (rest : List Request) (s : State) (r : Response) : State :=
  { requests := rest, responses := s.responses ++ [r] }

/-- Two words with one OP that agree on every bit the operation of that OP reads (R48): PCOUNT reads L; PPOS reads L
and A; ENC, ANALYZE and CORRECT read L and the payload bits below L. -/
def SameReadBits (q q' : Request) : Prop :=
  opField q = opField q' ∧
  (opField q ≤ 4 → lenField q = lenField q') ∧
  (opField q = 1 → auxField q = auxField q') ∧
  (2 ≤ opField q → opField q ≤ 4 → ∀ i, i < lenField q → q.getLsbD (16 + i) = q'.getLsbD (16 + i))

/-- A data vector ENC accepts (R72). -/
def Supported (d : Bits) : Prop := d.length ∈ Config.supportedDataLengths

/-- The sublists of `k` elements, in the list's order: the sets of positions flipped in R95. -/
def combinations : Nat → List Nat → List (List Nat)
  | 0, _ => [[]]
  | _ + 1, [] => []
  | k + 1, x :: xs => (combinations k xs).map (x :: ·) ++ combinations (k + 1) xs

/-- How many ways of flipping `k` distinct positions of `c` CORRECT classifies as `cl` (R95). -/
def multiErrorCount (c : Bits) (k : Nat) (cl : Classification) : Nat :=
  (combinations k (positionsUpTo c.length)).countP fun is =>
    decide ((correctCodeword (is.foldl flipAt c)).classification = cl)

/-- What holds of every response the block produces: the status codes of R52 with R56's zeros, the code and position
pairs of R83 to R89, the contents of `rdata` of R55, and the bound of the syndrome (R91). -/
structure Response.Legal (r : Response) : Prop where
  /-- Status 3 is never produced (R52). -/
  status_ne : r.status ≠ 3
  /-- A response that reports an error has every other field zero (R56). -/
  error_zero : r.status ≠ 0 → r = { Response.zero with status := r.status }
  /-- `-1 ≤ pos ≤ 63` (R51). -/
  pos_range : -1 ≤ r.pos.toInt ∧ r.pos.toInt ≤ 63
  /-- NoError is reported at position 0 (R85). -/
  noError_pos : r.cls = 0 → r.pos = 0
  /-- SingleErrorCorrected is reported at a position of the codeword (R86, R87). -/
  single_pos : r.cls = 1 → 1 ≤ r.pos.toInt ∧ r.pos.toInt ≤ r.rlen.toNat
  /-- DoubleErrorDetected is reported at -1 (R89). -/
  double_pos : r.cls = 2 → r.pos.toInt = -1
  /-- Uncorrectable is the empty codeword at -1, or a syndrome past the codeword (R84, R88, R92). -/
  uncorrectable_pos : r.cls = 3 → (r.rlen = 0 ∧ r.pos.toInt = -1) ∨ (0 < r.rlen.toNat ∧ r.rlen.toNat ≤ r.pos.toInt)
  /-- A codeword ends at `rlen`: the bits of `rdata` above are 0 (R55). -/
  data_above : r.rlen ≠ 0 → r.rdata.toNat < 2 ^ r.rlen.toNat
  /-- Without a codeword `rdata` is 0 or the mask of the first `psec` powers of two (R55, R65). -/
  mask : r.rlen = 0 → r.rdata = 0 ∨ r.rdata.toNat = 2 ^ r.psec.toNat - 1
  /-- The syndrome is below `2^psec` (R91). -/
  syn_bound : r.syn.toNat < 2 ^ r.psec.toNat

/-- The invariant of a run: every response produced so far is a legal one. -/
def State.ResponsesLegal (s : State) : Prop := ∀ r ∈ s.responses, r.Legal

end Sys2Proof.Machine
end

