-- ==== Sys2Proof/Certificates/Slice0/Obligations.lean ====
section
/-! DEFINITION. The statements for the provers, each a rule of the spec or what rests on one. The tables are copied
from the spec and are the model's nowhere else: R61, R68, R70, R71 and R79. -/

namespace Sys2Proof.SpecTables

/-- R61's table of parityCount for m in 0..63: (first m, last m, p_sec). -/
def parityCountRows : List (Nat × Nat × Nat) :=
  [(0, 0, 0), (1, 1, 2), (2, 4, 3), (5, 11, 4), (12, 26, 5), (27, 57, 6), (58, 63, 7)]

/-- R79's table of the inferred positions for a secPart length of 0..62: (first length, last length, positions). -/
def inferredRows : List (Nat × Nat × List Nat) :=
  [(0, 0, []), (1, 1, [1]), (2, 3, [1, 2]), (4, 7, [1, 2, 4]), (8, 15, [1, 2, 4, 8]), (16, 31, [1, 2, 4, 8, 16]),
   (32, 62, [1, 2, 4, 8, 16, 32])]

/-- R68's table: the positions of `d.at(0)`, `d.at(1)`, … for m = 8. -/
def dataPositions8 : List Nat := [3, 5, 6, 7, 9, 10, 11, 12]

/-- R68's table for m = 16. -/
def dataPositions16 : List Nat := [3, 5, 6, 7, 9, 10, 11, 12, 13, 14, 15, 17, 18, 19, 20, 21]

/-- R68's table for m = 32. -/
def dataPositions32 : List Nat :=
  [3, 5, 6, 7, 9, 10, 11, 12, 13, 14, 15, 17, 18, 19, 20, 21, 22, 23, 24, 25, 26, 27, 28, 29, 30, 31, 33, 34, 35,
   36, 37, 38]

/-- R70's table for m = 8: (parity position, data indices whose exclusive or it is). -/
def parityRows8 : List (Nat × List Nat) :=
  [(1, [0, 1, 3, 4, 6]), (2, [0, 2, 3, 5, 6]), (4, [1, 2, 3, 7]), (8, [4, 5, 6, 7])]

/-- R70's table for m = 16. -/
def parityRows16 : List (Nat × List Nat) :=
  [(1, [0, 1, 3, 4, 6, 8, 10, 11, 13, 15]), (2, [0, 2, 3, 5, 6, 9, 10, 12, 13]),
   (4, [1, 2, 3, 7, 8, 9, 10, 14, 15]), (8, [4, 5, 6, 7, 8, 9, 10]), (16, [11, 12, 13, 14, 15])]

/-- R70's table for m = 32. -/
def parityRows32 : List (Nat × List Nat) :=
  [(1, [0, 1, 3, 4, 6, 8, 10, 11, 13, 15, 17, 19, 21, 23, 25, 26, 28, 30]),
   (2, [0, 2, 3, 5, 6, 9, 10, 12, 13, 16, 17, 20, 21, 24, 25, 27, 28, 31]),
   (4, [1, 2, 3, 7, 8, 9, 10, 14, 15, 16, 17, 22, 23, 24, 25, 29, 30, 31]),
   (8, [4, 5, 6, 7, 8, 9, 10, 18, 19, 20, 21, 22, 23, 24, 25]),
   (16, [11, 12, 13, 14, 15, 16, 17, 18, 19, 20, 21, 22, 23, 24, 25]),
   (32, [26, 27, 28, 29, 30, 31])]

/-- R71's expansion of the overall bit over data indices, by data length. -/
def overallRows : List (Nat × List Nat) :=
  [(8, [0, 1, 2, 4, 5, 7]), (16, [0, 1, 2, 4, 5, 7, 10, 11, 12, 14]),
   (32, [0, 1, 2, 4, 5, 7, 10, 11, 12, 14, 17, 18, 21, 23, 24, 26, 27, 29])]

/-- The exclusive or of the data elements at the given indices. -/
def xorAt (d : Bits) (is : List Nat) : Bit := is.foldl (fun b i => xor b (d.getD i false)) false

end Sys2Proof.SpecTables

open Sys2Proof Sys2Proof.Machine Sys2Proof.SpecTables

/-! ## The request word -/

/-- Decoding an encoded well-formed operation gives it back, with every operand (R41, R45 to R47, R57). -/
def Obligations.DecodeAfterEncode : Prop :=
  ∀ i : Instr, i.WellFormed → decode (encode i) = .ok i

/-- What the decoder gives is well formed, and its encoding agrees with the word on every bit the operation reads. -/
def Obligations.EncodeAfterDecodeKeepsReadBits : Prop :=
  ∀ (q : Request) (i : Instr), decode q = .ok i → i.WellFormed ∧ SameReadBits q (encode i)

/-- R41: the four fields make up the word, and each holds what was packed into it. -/
def Obligations.RequestWordIsItsFields : Prop :=
  (∀ q : Request,
    q.toNat = payloadField q * 2 ^ 16 + auxField q * 2 ^ 10 + lenField q * 2 ^ 4 + opField q ∧
    opField q < 16 ∧ lenField q < 64 ∧ auxField q < 64 ∧ payloadField q < 2 ^ 64) ∧
  (∀ payload a l op : Nat, payload < 2 ^ 64 → a < 64 → l < 64 → op < 16 →
    payloadField (packRequest payload a l op) = payload ∧ auxField (packRequest payload a l op) = a ∧
    lenField (packRequest payload a l op) = l ∧ opField (packRequest payload a l op) = op)

/-- R45: the operation's bit sequence is the first L payload bits, element i being REQ[16+i] and position j being
REQ[16+j-1]; PCOUNT and PPOS read none. -/
def Obligations.PayloadSequenceOfRequest : Prop :=
  ∀ q : Request,
    (opField q = 0 → decode q = .ok (.pcount (lenField q))) ∧
    (opField q = 1 → decode q = .ok (.ppos (lenField q) (auxField q))) ∧
    ∃ b : Bits, b.length = lenField q ∧
      (∀ i, i < lenField q → b[i]? = some (q.getLsbD (16 + i))) ∧
      (∀ j, 1 ≤ j → j ≤ lenField q → bitAt b j = q.getLsbD (16 + j - 1)) ∧
      (opField q = 2 → decode q = .ok (.enc b)) ∧
      (opField q = 3 → decode q = .ok (.analyze b)) ∧
      (opField q = 4 → decode q = .ok (.correct b))

/-- R46: every word is of exactly one row of spec/opcode_table.json, the row of the operation it decodes to, or of no
row, and is then rejected with its OP, which is 5..15. -/
def Obligations.WordSelectsOneTableRow : Prop :=
  ∀ q : Request,
    match decode q with
    | .ok i => (opTable.filter (·.selects q)).map (·.mnemonic) = [i.mnemonic]
    | .error e => opTable.filter (·.selects q) = [] ∧ e = .reservedOp (opField q) ∧ 5 ≤ opField q ∧ opField q ≤ 15

/-- Words written out from R41 decode to the operations of the spec's examples (R59, R63, R67, R76, R83). -/
def Obligations.ExampleWordsDecode : Prop :=
  decode 0x00000000000000000080 = .ok (.pcount 8) ∧
  decode 0x00000000000000003041 = .ok (.ppos 4 12) ∧
  decode 0x00000000000000350082 = .ok (.enc [true, false, true, false, true, true, false, false]) ∧
  decode 0x00000000000000030023 = .ok (.analyze [true, true]) ∧
  decode 0x00000000000000020024 = .ok (.correct [false, true]) ∧
  decode 0x00000000000000350085 = .error (.reservedOp 5)

/-- R48: words that differ only in bits the operation does not read get the same step, and an assembled operation has
those bits zero. -/
def Obligations.IgnoredBitsNeverMatter : Prop :=
  (∀ (q q' : Request) (rest : List Request) (rs : List Response), SameReadBits q q' →
    step { requests := q :: rest, responses := rs } = step { requests := q' :: rest, responses := rs }) ∧
  (∀ m, m < 64 → auxField (encode (.pcount m)) = 0 ∧ payloadField (encode (.pcount m)) = 0) ∧
  (∀ p n, p < 64 → n < 64 → payloadField (encode (.ppos p n)) = 0) ∧
  (∀ b : Bits, b.length < 64 → ∀ i, i ∈ [Instr.enc b, Instr.analyze b, Instr.correct b] →
    auxField (encode i) = 0 ∧ ∀ k, b.length ≤ k → k < 64 → (encode i).getLsbD (16 + k) = false)

/-- A line the assembler accepts as an operation is a well-formed one, and its word decodes to it (R57). -/
def Obligations.AssembledLineDecodesToItself : Prop :=
  ∀ (cs : List Char) (i : Instr), parseLine cs = some (.operation i) →
    i.WellFormed ∧ decode (AsmLine.assemble (.operation i)) = .ok i

/-! ## The step -/

/-- A step runs the operation its request decodes to, the request consumed; and a presented opcode-table word is the
very next request (log 11). -/
def Obligations.StepRunsDecodedOperation : Prop :=
  (∀ (s : State) (q : Request) (rest : List Request) (i : Instr), s.requests = q :: rest → decode q = .ok i →
    step s = exec i { s with requests := rest }) ∧
  (∀ (s : State) (nbits w : Nat) (i : Instr), decodeTableWord nbits w = some i →
    step (s.withFetchWord nbits w) = exec i s)

/-- R49 and R98: a reserved OP, and nothing else, is answered with status 2 and every other field zero; every other
word completes, and only ENC reports an error of its own. -/
def Obligations.ReservedOpIsIllegalRequest : Prop :=
  ∀ (s : State) (q : Request) (rest : List Request), s.requests = q :: rest →
    (5 ≤ opField q → step s = .next (State.after rest s
      { status := 2, cls := 0, ovp := 0, psec := 0, syn := 0, pos := 0, rlen := 0, rdata := 0 })) ∧
    (opField q ≤ 4 → ∃ r : Response, step s = .next (State.after rest s r) ∧ r.status ≠ 2 ∧
      (r.status ≠ 0 → opField q = 2))

/-- Where no request is presented the model gives no response: the model's choice of log 2, where R111 gives no
value. -/
def Obligations.NoRequestNoResponse : Prop :=
  ∀ s : State, (s.requests = [] → step s = .refused .noRequestPresented) ∧
    (s.requests ≠ [] → ∃ t : State, step s = .next t)

/-- R22's function: one step answers the presented request with `portResponse` and leaves the later requests and the
earlier responses as they were. -/
def Obligations.StepAnswersPresentedRequest : Prop :=
  ∀ (s : State) (q : Request) (rest : List Request), s.requests = q :: rest →
    step s = .next (State.after rest s (portResponse q))

/-- R22's run: a list of requests is answered by the list of their responses, in the same order, from any state. -/
def Obligations.RunAnswersEveryRequestInOrder : Prop :=
  ∀ (qs rest : List Request) (s : State), s.requests = qs ++ rest →
    Host.Core.run core qs.length s =
      .next { requests := rest, responses := s.responses ++ qs.map portResponse }

/-- R113: a response depends only on its own request, whatever came before and whatever comes after. -/
def Obligations.ResponseDependsOnlyOnItsRequest : Prop :=
  ∀ q : Request, ∃ r : Response, ∀ (rest : List Request) (rs : List Response),
    step { requests := q :: rest, responses := rs } = .next { requests := rest, responses := rs ++ [r] }

/-- R114: a request presented twice gets one response twice, and two requests in either order get their own. -/
def Obligations.RepeatedAndReorderedRequests : Prop :=
  ∀ q q' : Request, ∃ r r' : Response, ∀ rs : List Response,
    Host.Core.run core 2 { requests := [q, q], responses := rs } = .next { requests := [], responses := rs ++ [r, r] } ∧
    Host.Core.run core 2 { requests := [q, q'], responses := rs } =
      .next { requests := [], responses := rs ++ [r, r'] } ∧
    Host.Core.run core 2 { requests := [q', q], responses := rs } =
      .next { requests := [], responses := rs ++ [r', r] }

/-- Every step keeps the invariant that each response produced so far is a legal one (R51 to R56, R83 to R92). -/
def Obligations.StepKeepsResponsesLegal : Prop :=
  ∀ s t : State, s.ResponsesLegal → step s = .next t → t.ResponsesLegal

/-- The invariant of StepKeepsResponsesLegal holds at reset. That the response list is then empty, on which this rests
alone, is the model's choice of log 3 (DESIGN CHOICE): the spec gives no reset value (R23, R110). -/
def Obligations.ResetResponsesLegal : Prop := State.reset.ResponsesLegal

/-- The frame of all five operations: a well-formed one completes from every state, leaves the waiting requests and
the earlier responses as they were, and adds one response, which does not depend on the state. -/
def Obligations.OperationOnlyAddsItsResponse : Prop :=
  ∀ i : Instr, i.WellFormed → ∃ r : Response, ∀ s : State,
    exec i s = .next { requests := s.requests, responses := s.responses ++ [r] }

/-- An operand no request word can carry is refused by name, by every operation (I9, the model's choice of log 4). -/
def Obligations.UncarriableOperandIsRefused : Prop :=
  ∀ (i : Instr) (s : State), ¬ i.WellFormed → exec i s = .refused .notExpressible

/-! ## PCOUNT, PPOS and the parity layout -/

/-- R60: parityCount is the smallest number that meets the bound, for every length. -/
def Obligations.ParityCountIsSmallest : Prop :=
  ∀ m : Nat, m + parityCount m + 1 ≤ 2 ^ parityCount m ∧ ∀ p, p < parityCount m → 2 ^ p < m + p + 1

/-- R61: parityCount's bound, monotonicity, value at 0, minimality, and the table for 0..63.
The spec's R61 is marked [derived: from rule R60]. -/
def Obligations.ParityCountLaws : Prop :=
  (∀ m, parityCount m ≤ m + 1) ∧
  (∀ m m', m ≤ m' → parityCount m ≤ parityCount m') ∧
  parityCount 0 = 0 ∧
  (∀ m, 1 ≤ parityCount m → 2 ^ (parityCount m - 1) < m + parityCount m) ∧
  (∀ row ∈ parityCountRows, ∀ m, row.1 ≤ m → m ≤ row.2.1 → parityCount m = row.2.2) ∧
  parityCount 8 = 4 ∧ parityCount 16 = 5 ∧ parityCount 32 = 6

/-- R59: PCOUNT answers the parity count of L, whatever A and PAYLOAD hold, and leaves every other field zero. -/
def Obligations.PcountResult : Prop :=
  (∀ (m : Nat) (s : State), m ≤ 63 → ∃ p, p ≤ 7 ∧ p = parityCount m ∧ m + p + 1 ≤ 2 ^ p ∧
    (∀ k, k < p → 2 ^ k < m + k + 1) ∧ (m = 0 → p = 0) ∧ (m = 1 → p = 2) ∧ (m = 8 → p = 4) ∧ (m = 63 → p = 7) ∧
    exec (.pcount m) s = .next (State.after s.requests s
      { status := 0, cls := 0, ovp := 0, psec := BitVec.ofNat 3 p, syn := 0, pos := 0, rlen := 0, rdata := 0 })) ∧
  (∀ (s : State) (q : Request) (rest : List Request), s.requests = q :: rest → opField q = 0 →
    step s = exec (.pcount (lenField q)) { s with requests := rest })

/-- R62: parityPositions lists the first p powers of two, stopping before the first that exceeds n; filtering gives
the same. -/
def Obligations.ParityPositionsStopEarly : Prop :=
  ∀ p n : Nat,
    parityPositions p n = ((List.range p).map (2 ^ ·)).takeWhile (fun q => decide (q ≤ n)) ∧
    parityPositions p n = ((List.range p).map (2 ^ ·)).filter (fun q => decide (q ≤ n))

/-- R65: a position sequence, the encoder's or the decoder's, is a strictly ascending prefix of the powers of two, and
no two of its elements share a bit.
The spec's R65 is marked [derived: from rule R62]. -/
def Obligations.PositionSequenceShape : Prop :=
  ∀ ps : List Nat, ((∃ p n, ps = parityPositions p n) ∨ (∃ cap len, ps = inferredPositions cap len)) →
    (∀ q ∈ ps, ∃ k, q = 2 ^ k) ∧ ps.Pairwise (· < ·) ∧ ps = (List.range ps.length).map (2 ^ ·) ∧
    (∀ q ∈ ps, q &&& q = q ∧ q ≠ 0) ∧ (∀ q ∈ ps, ∀ q' ∈ ps, q ≠ q' → q &&& q' = 0)

/-- R64: from the encoder the clamp never triggers.
The spec's R64 is marked [derived: from rule R60 and rule R62]. -/
def Obligations.ClampNeverTriggersFromEncoder : Prop :=
  ∀ m : Nat, parityPositions (parityCount m) (m + parityCount m) = (List.range (parityCount m)).map (2 ^ ·) ∧
    (parityPositions (parityCount m) (m + parityCount m)).length = parityCount m

/-- R66: the parity positions of a SEC codeword are exactly the powers of two up to its length, the others are as many
as the data, and the decoder infers the same positions from the length.
The spec's R66 is marked [derived: from rule R60, rule R64 and rule R79]. -/
def Obligations.LayoutOfSecCodeword : Prop :=
  ∀ m p n : Nat, p = parityCount m → n = m + p →
    (∀ q, q ∈ parityPositions p n ↔ ∃ k, k < p ∧ q = 2 ^ k) ∧
    (∀ q, q ∈ parityPositions p n ↔ ∃ k, q = 2 ^ k ∧ 2 ^ k ≤ n) ∧
    ((positionsUpTo n).filter fun j => decide (j ∉ parityPositions p n)).length = m ∧
    (∀ cap, p ≤ cap → inferredPositions cap n = parityPositions p n) ∧
    (m ≤ 1013 → p ≤ Config.parityIterCap)

/-- R63: PPOS answers the position sequence as a mask with its length in psec, and leaves every other field zero. -/
def Obligations.PposResult : Prop :=
  (∀ (p n : Nat) (s : State), p ≤ 63 → n ≤ 63 → ∃ r : Response,
    exec (.ppos p n) s = .next (State.after s.requests s r) ∧
    r.psec.toNat = (parityPositions p n).length ∧ r.psec.toNat ≤ 6 ∧
    (∀ k, k ≤ 63 → r.rdata.getLsbD k = decide (2 ^ k ∈ parityPositions p n)) ∧
    r.rdata.toNat = 2 ^ r.psec.toNat - 1 ∧ (p = 0 → r.psec = 0) ∧ (n = 0 → r.psec = 0) ∧
    (p = 4 → n = 5 → r.psec = 3) ∧ (p = 63 → n = 63 → r.psec = 6) ∧ (p = 4 → n = 12 → r.psec = 4) ∧
    r.status = 0 ∧ r.rlen = 0 ∧ r.cls = 0 ∧ r.ovp = 0 ∧ r.syn = 0 ∧ r.pos = 0) ∧
  (∀ (s : State) (q : Request) (rest : List Request), s.requests = q :: rest → opField q = 1 →
    step s = exec (.ppos (lenField q) (auxField q)) { s with requests := rest })

/-! ## ENC -/

/-- R72 and R97: ENC answers INVALID_LENGTH, every other field zero, for every length but 8, 16 and 32, and no other
operation does. -/
def Obligations.EncRefusesOtherLengths : Prop :=
  (∀ d : Bits, d.length ∉ [8, 16, 32] → encodeData d = .error .invalidLength) ∧
  (∀ d : Bits, d.length ∈ [8, 16, 32] → ∃ c, encodeData d = .ok c) ∧
  (∀ (d : Bits) (s : State), d.length ≤ 63 → d.length ∉ [8, 16, 32] →
    exec (.enc d) s = .next (State.after s.requests s
      { status := 1, cls := 0, ovp := 0, psec := 0, syn := 0, pos := 0, rlen := 0, rdata := 0 })) ∧
  (∀ q : Request, (portResponse q).status = 1 ↔ opField q = 2 ∧ lenField q ∉ [8, 16, 32])

/-- R67: ENC answers the codeword of a supported data vector in rlen and rdata, INVALID_LENGTH for any other, and
leaves every other field zero; all-zero data, all-one data of 8 bits and the rule's example. -/
def Obligations.EncResult : Prop :=
  (∀ (d : Bits) (s : State), Supported d → ∃ (c : Bits) (r : Response), encodeData d = .ok c ∧
    exec (.enc d) s = .next (State.after s.requests s r) ∧ r.rlen.toNat = c.length ∧
    (∀ j, 1 ≤ j → j ≤ c.length → r.rdata.getLsbD (j - 1) = bitAt c j) ∧
    (∀ i, c.length ≤ i → r.rdata.getLsbD i = false) ∧
    r.status = 0 ∧ r.cls = 0 ∧ r.ovp = 0 ∧ r.psec = 0 ∧ r.syn = 0 ∧ r.pos = 0) ∧
  (∀ (d : Bits) (s : State), d.length ≤ 63 → ¬ Supported d →
    exec (.enc d) s = .next (State.after s.requests s { Response.zero with status := 1 })) ∧
  (∀ m, m ∈ [8, 16, 32] →
    encodeData (List.replicate m false) = .ok (List.replicate (m + parityCount m + 1) false)) ∧
  (∀ s : State, exec (.enc (List.replicate 8 true)) s =
      .next (State.after s.requests s { Response.zero with rlen := 13, rdata := 0b0111101110111 }) ∧
    exec (.enc [true, false, true, false, true, true, false, false]) s =
      .next (State.after s.requests s { Response.zero with rlen := 13, rdata := 0x32E })) ∧
  (∀ (s : State) (q : Request) (rest : List Request), s.requests = q :: rest → opField q = 2 →
    step s = exec (.enc (payloadSeq q (lenField q))) { s with requests := rest })

/-- R69: the codeword has length m + p_sec + 1, which is 13, 22 or 39. -/
def Obligations.CodewordLength : Prop :=
  ∀ d c : Bits, encodeData d = .ok c →
    c.length = d.length + parityCount d.length + 1 ∧
    (d.length = 8 → c.length = 13) ∧ (d.length = 16 → c.length = 22) ∧ (d.length = 32 → c.length = 39) ∧
    c.length ≤ Config.maxCwLen

/-- R68: the data elements stand in input order at the positions that are not parity positions, which for each
supported length are the table's.
The spec's R68 marks its table of positions as derived. -/
def Obligations.DataStandsInOrder : Prop :=
  (∀ d : Bits,
    ((positionsUpTo (d.length + parityCount d.length)).filter fun j =>
      decide (j ∉ parityPositions (parityCount d.length) (d.length + parityCount d.length))).map (bitAt (codewordOf d)) =
        d) ∧
  (∀ d c : Bits, encodeData d = .ok c →
    (d.length = 8 → dataPositions8.map (bitAt c) = d) ∧
    (d.length = 16 → dataPositions16.map (bitAt c) = d) ∧
    (d.length = 32 → dataPositions32.map (bitAt c) = d))

/-- R70: each parity bit is the parity of the other SEC positions it covers, and the exclusive or of the data elements
of the table.
The spec's R70 marks its table of data indices as derived. -/
def Obligations.ParityBitsOfCodeword : Prop :=
  ∀ d c : Bits, encodeData d = .ok c →
    (∀ q ∈ parityPositions (parityCount d.length) (d.length + parityCount d.length),
      bitAt c q = odd ((positionsUpTo (d.length + parityCount d.length)).countP
        fun j => j != q && (j &&& q != 0) && bitAt c j)) ∧
    (d.length = 8 → ∀ row ∈ parityRows8, bitAt c row.1 = xorAt d row.2) ∧
    (d.length = 16 → ∀ row ∈ parityRows16, bitAt c row.1 = xorAt d row.2) ∧
    (d.length = 32 → ∀ row ∈ parityRows32, bitAt c row.1 = xorAt d row.2)

/-- R71: the last bit is the parity of the SEC codeword, so the total number of 1s is even, and it is the exclusive or
of the data elements of the table.
The spec's R71 marks its expansion over data indices as derived. -/
def Obligations.OverallParityBitOfCodeword : Prop :=
  ∀ d c : Bits, encodeData d = .ok c →
    overallBit c = odd (ones (secPart c)) ∧ ones c % 2 = 0 ∧
    (∀ row ∈ overallRows, d.length = row.1 → overallBit c = xorAt d row.2)

/-- What the parity positions hold before step 3 never shows in the codeword (R68, I12). -/
def Obligations.AllocatedBitsNeverShow : Prop :=
  ∀ (fill : Nat → Bit) (d : Bits), codewordWith fill d = codewordOf d

/-- R75: the parity positions may be written in any order, `encode` is linear over GF(2), and all-zero data gives the
all-zero codeword.
The spec's R75 is marked [derived: from rules R68, R70 and R71]. -/
def Obligations.EncodeIsLinear : Prop :=
  (∀ (d : Bits) (ps : List Nat), ps.Perm (parityPositions (parityCount d.length) (d.length + parityCount d.length)) →
    ps.foldl writeParity (placeData (parityPositions (parityCount d.length) (d.length + parityCount d.length))
      (fun _ => false) (positionsUpTo (d.length + parityCount d.length)) d) = secCodeword (fun _ => false) d) ∧
  (∀ a b ca cb : Bits, a.length = b.length → encodeData a = .ok ca → encodeData b = .ok cb →
    encodeData (xorBits a b) = .ok (xorBits ca cb)) ∧
  (∀ d c : Bits, encodeData d = .ok c → (∀ x ∈ d, x = false) → ∀ x ∈ c, x = false)

/-! ## ANALYZE -/

/-- R77: the empty input analyses to (0, false, 0, []), under every cap. -/
def Obligations.AnalyzeOfEmpty : Prop :=
  ∀ cap : Nat, analyzeWith cap [] = { syndrome := 0, parityOdd := false, pSec := 0, positions := [] }

/-- R79: the inferred positions are the powers of two up to the secPart's length, at most the cap's number of them; at
the port they are the table's.
The spec's R79 takes the cap's reading from its own decision D17. -/
def Obligations.InferredPositionsOfLength : Prop :=
  (∀ cap len : Nat, inferredPositions cap len = ((List.range cap).map (2 ^ ·)).takeWhile (fun q => decide (q ≤ len)) ∧
    (inferredPositions cap len).length ≤ cap) ∧
  (∀ row ∈ inferredRows, ∀ len, row.1 ≤ len → len ≤ row.2.1 →
    inferredPositions Config.parityIterCap len = row.2.2) ∧
  (∀ (cap : Nat) (c : Bits), c ≠ [] → (analyzeWith cap c).positions = inferredPositions cap (c.length - 1))

/-- R80: bit k of the syndrome says whether check k failed: whether an odd number of secPart positions with bit k set,
`2^k` itself among them, hold a 1. -/
def Obligations.SyndromeBitsAreFailedChecks : Prop :=
  ∀ (cap : Nat) (c : Bits) (k : Nat), c ≠ [] →
    (analyzeWith cap c).syndrome.testBit k =
      (decide (2 ^ k ∈ (analyzeWith cap c).positions) &&
        decide (((positionsUpTo (c.length - 1)).filter fun j => j.testBit k && bitAt c j).length % 2 = 1))

/-- R91: the syndrome is the exclusive or of the secPart positions that hold a 1; its bounds; what a flip does to it.
The spec's R91 is marked [derived: from rule R79, rule R80 and rule R81]. -/
def Obligations.SyndromeIsXorOfOnes : Prop :=
  ∀ (cap : Nat) (c : Bits), c ≠ [] → c.length - 1 < 2 ^ cap →
    (analyzeWith cap c).syndrome =
      ((positionsUpTo (c.length - 1)).filter fun j => bitAt c j).foldl (fun x j => x ^^^ j) 0 ∧
    (∀ j, j ≤ c.length - 1 → ∀ k, j.testBit k = true → 2 ^ k ∈ (analyzeWith cap c).positions) ∧
    (analyzeWith cap c).syndrome ≤ 2 ^ (analyzeWith cap c).positions.length - 1 ∧
    (2 ≤ c.length → (analyzeWith cap c).syndrome ≤ 2 * (c.length - 1) - 1) ∧
    (c.length ≤ 63 → (analyzeWith cap c).syndrome ≤ 63) ∧
    (∀ j, 1 ≤ j → j ≤ c.length - 1 →
      (analyzeWith cap (flipAt c j)).syndrome = (analyzeWith cap c).syndrome ^^^ j ∧
      (analyzeWith cap (flipAt c j)).parityOdd = !(analyzeWith cap c).parityOdd) ∧
    (analyzeWith cap (flipAt c c.length)).syndrome = (analyzeWith cap c).syndrome ∧
    (analyzeWith cap (flipAt c c.length)).parityOdd = !(analyzeWith cap c).parityOdd

/-- R76: ANALYZE answers the results of `analyze` without truncation, and leaves every other field zero; the rule's
corner cases and its example. -/
def Obligations.AnalyzeResult : Prop :=
  (∀ (c : Bits) (s : State), c.length ≤ 63 → ∃ r : Response,
    exec (.analyze c) s = .next (State.after s.requests s r) ∧
    r.syn.toNat = (analyzeCodeword c).syndrome ∧
    (r.ovp = 1 ↔ (analyzeCodeword c).parityOdd = true) ∧
    r.psec.toNat = (analyzeCodeword c).positions.length ∧ r.psec.toNat ≤ 6 ∧
    (∀ k, k ≤ 63 → r.rdata.getLsbD k = decide (2 ^ k ∈ (analyzeCodeword c).positions)) ∧
    r.status = 0 ∧ r.cls = 0 ∧ r.pos = 0 ∧ r.rlen = 0 ∧
    (c = [] → r = Response.zero) ∧
    (∀ b, c = [b] → r = { Response.zero with ovp := BitVec.ofBool b }) ∧
    (∀ a b, c = [a, b] → r.psec = 1 ∧ r.syn.toNat = a.toNat ∧ r.ovp = BitVec.ofBool (xor a b))) ∧
  (∀ s : State, exec (.analyze ([true, true] ++ List.replicate 57 false ++ [true, false, false, false])) s =
      .next (State.after s.requests s { Response.zero with syn := 63, ovp := 1, psec := 6, rdata := 0x3F }) ∧
    exec (.analyze [false, true, true, true, true, true, false, false, true, true, false, false, false]) s =
      .next (State.after s.requests s { Response.zero with syn := 5, ovp := 1, psec := 4, rdata := 0xF })) ∧
  (∀ (s : State) (q : Request) (rest : List Request), s.requests = q :: rest → opField q = 3 →
    step s = exec (.analyze (payloadSeq q (lenField q))) { s with requests := rest })

/-- R81: overallParityOdd says whether the number of 1-bits over the whole input, the overall bit included, is odd;
the empty input is even. -/
def Obligations.OverallParityCountsWholeInput : Prop :=
  ∀ (cap : Nat) (c : Bits), (analyzeWith cap c).parityOdd = c.foldl xor false

/-! ## CORRECT -/

/-- R84: the empty input is Uncorrectable at position -1. -/
def Obligations.CorrectOfEmpty : Prop :=
  (∀ cap : Nat, correctWith cap [] = { codeword := [], classification := .uncorrectable, position := -1 }) ∧
  ∀ s : State, exec (.correct []) s = .next (State.after s.requests s
    { status := 0, cls := 3, ovp := 0, psec := 0, syn := 0, pos := 0xFF, rlen := 0, rdata := 0 })

/-- R85 to R89: the four-way branch of `correct`, with the verification of R87 and its fallback. -/
def Obligations.CorrectFourWayBranch : Prop :=
  ∀ (cap : Nat) (c : Bits) (S : Nat) (P : Bool), c ≠ [] → (analyzeWith cap c).syndrome = S →
    (analyzeWith cap c).parityOdd = P →
    (S = 0 → P = false → correctWith cap c = { codeword := c, classification := .noError, position := 0 }) ∧
    (S = 0 → P = true → correctWith cap c =
      { codeword := flipAt c c.length, classification := .singleErrorCorrected, position := c.length }) ∧
    (S ≠ 0 → P = true → S ≤ c.length - 1 →
      ((analyzeWith cap (flipAt c S)).syndrome = 0 ∧ (analyzeWith cap (flipAt c S)).parityOdd = false →
        correctWith cap c = { codeword := flipAt c S, classification := .singleErrorCorrected, position := S }) ∧
      (¬ ((analyzeWith cap (flipAt c S)).syndrome = 0 ∧ (analyzeWith cap (flipAt c S)).parityOdd = false) →
        correctWith cap c = { codeword := c, classification := .uncorrectable, position := S })) ∧
    (S ≠ 0 → P = true → c.length - 1 < S →
      correctWith cap c = { codeword := c, classification := .uncorrectable, position := S }) ∧
    (S ≠ 0 → P = false →
      correctWith cap c = { codeword := c, classification := .doubleErrorDetected, position := -1 })

/-- R92: the verification always passes, at every length and under every cap, so Uncorrectable comes only from the
empty input and from a syndrome past the codeword.
The spec's R92 is marked [derived: from rule R80, rule R81 and rule R87]. -/
def Obligations.VerificationAlwaysPasses : Prop :=
  ∀ (cap : Nat) (c : Bits),
    (c ≠ [] → 0 < (analyzeWith cap c).syndrome → (analyzeWith cap c).syndrome ≤ c.length - 1 →
      (analyzeWith cap (flipAt c (analyzeWith cap c).syndrome)).syndrome = 0 ∧
      (analyzeWith cap (flipAt c (analyzeWith cap c).syndrome)).parityOdd = !(analyzeWith cap c).parityOdd) ∧
    ((correctWith cap c).classification = .uncorrectable ↔
      c = [] ∨ ((analyzeWith cap c).parityOdd = true ∧ c.length - 1 < (analyzeWith cap c).syndrome))

/-- R83: CORRECT answers the results of `correct` without truncation, and leaves every other field zero; the rule's
corner cases and its example. -/
def Obligations.CorrectResult : Prop :=
  (∀ (c : Bits) (s : State), c.length ≤ 63 → ∃ r : Response,
    exec (.correct c) s = .next (State.after s.requests s r) ∧
    r.rlen.toNat = c.length ∧ (correctCodeword c).codeword.length = c.length ∧
    (∀ j, 1 ≤ j → j ≤ c.length → r.rdata.getLsbD (j - 1) = bitAt (correctCodeword c).codeword j) ∧
    (∀ i, c.length ≤ i → r.rdata.getLsbD i = false) ∧
    r.cls.toNat = (match (correctCodeword c).classification with
      | .noError => 0
      | .singleErrorCorrected => 1
      | .doubleErrorDetected => 2
      | .uncorrectable => 3) ∧
    r.pos.toInt = (correctCodeword c).position ∧ -1 ≤ r.pos.toInt ∧ r.pos.toInt ≤ 63 ∧
    r.status = 0 ∧ r.ovp = 0 ∧ r.psec = 0 ∧ r.syn = 0 ∧
    (c = [true] → r.cls = 1 ∧ r.pos = 1 ∧ r.rdata = 0) ∧ (c = [false] → r.cls = 0 ∧ r.pos = 0) ∧
    (c = [] → r.cls = 3 ∧ r.pos = 0xFF ∧ r.rlen = 0 ∧ r.rdata = 0) ∧
    (c = [true, true] → r.cls = 2 ∧ r.pos = 0xFF) ∧ (c = [false, true] → r.cls = 1 ∧ r.pos = 2 ∧ r.rdata = 0) ∧
    (c = [true, true] ++ List.replicate 57 false ++ [true, false, false, false] → r.cls = 3 ∧ r.pos = 63) ∧
    (c = [false, true, true, true, true, true, false, false, true, true, false, false, false] →
      r.cls = 1 ∧ r.pos = 5 ∧ r.rlen = 13 ∧ r.rdata = 0x32E)) ∧
  (∀ (s : State) (q : Request) (rest : List Request), s.requests = q :: rest → opField q = 4 →
    step s = exec (.correct (payloadSeq q (lenField q))) { s with requests := rest })

/-- At the port the cap never shows: every cap of 6 or more gives the port's `analyze` and `correct` (R79, I1). -/
def Obligations.CapNeverShowsAtPort : Prop :=
  ∀ (cap : Nat) (c : Bits), 6 ≤ cap → c.length ≤ 63 →
    analyzeWith cap c = analyzeCodeword c ∧ correctWith cap c = correctCodeword c

/-! ## The code -/

/-- R74: an encoded data vector analyses to (0, false) and corrects to itself, NoError at 0.
The spec's R74 is marked [derived: from rules R70, R71, R80 and R81]. -/
def Obligations.EncodedVectorChecksClean : Prop :=
  ∀ d c : Bits, encodeData d = .ok c →
    (analyzeCodeword c).syndrome = 0 ∧ (analyzeCodeword c).parityOdd = false ∧
    correctCodeword c = { codeword := c, classification := .noError, position := 0 }

/-- R93: every single flip of a valid codeword is corrected, and reported at its position.
The spec's R93 is marked [derived: from rule R91 and rule R74]. -/
def Obligations.SingleErrorIsCorrected : Prop :=
  ∀ (d c : Bits) (i : Nat), encodeData d = .ok c → 1 ≤ i → i ≤ c.length →
    correctCodeword (flipAt c i) = { codeword := c, classification := .singleErrorCorrected, position := i } ∧
    (i < c.length → (analyzeCodeword (flipAt c i)).syndrome = i) ∧
    (i = c.length → (analyzeCodeword (flipAt c i)).syndrome = 0)

/-- R94: every two distinct flips of a valid codeword are detected, and the codeword is returned unchanged.
The spec's R94 is marked [derived: from rule R91 and rule R89]. -/
def Obligations.DoubleErrorIsDetected : Prop :=
  ∀ (d c : Bits) (i i' : Nat), encodeData d = .ok c → 1 ≤ i → i < i' → i' ≤ c.length →
    (analyzeCodeword (flipAt (flipAt c i) i')).parityOdd = false ∧
    (analyzeCodeword (flipAt (flipAt c i) i')).syndrome ≠ 0 ∧
    (i' < c.length → (analyzeCodeword (flipAt (flipAt c i) i')).syndrome = i ^^^ i') ∧
    (i' = c.length → (analyzeCodeword (flipAt (flipAt c i) i')).syndrome = i) ∧
    correctCodeword (flipAt (flipAt c i) i') =
      { codeword := flipAt (flipAt c i) i', classification := .doubleErrorDetected, position := -1 }

/-- R95: what three and four distinct flips of a valid codeword give.
The spec's R95 is marked [derived: from rules R86 to R89 and R91]. -/
def Obligations.ThreeAndFourErrors : Prop :=
  ∀ d c : Bits, encodeData d = .ok c →
    (∀ i₁ i₂ i₃, 1 ≤ i₁ → i₁ < i₂ → i₂ < i₃ → i₃ ≤ c.length →
      ∀ c3, c3 = flipAt (flipAt (flipAt c i₁) i₂) i₃ →
        (analyzeCodeword c3).parityOdd = true ∧
        ((analyzeCodeword c3).syndrome ≤ c.length - 1 →
          (correctCodeword c3).classification = .singleErrorCorrected ∧ (correctCodeword c3).codeword ≠ c) ∧
        (c.length - 1 < (analyzeCodeword c3).syndrome → (correctCodeword c3).classification = .uncorrectable)) ∧
    (∀ i₁ i₂ i₃ i₄, 1 ≤ i₁ → i₁ < i₂ → i₂ < i₃ → i₃ < i₄ → i₄ ≤ c.length →
      ∀ c4, c4 = flipAt (flipAt (flipAt (flipAt c i₁) i₂) i₃) i₄ →
        (analyzeCodeword c4).parityOdd = false ∧
        ((analyzeCodeword c4).syndrome ≠ 0 → (correctCodeword c4).classification = .doubleErrorDetected) ∧
        ((analyzeCodeword c4).syndrome = 0 → (correctCodeword c4).classification = .noError))

/-- R95's counts: of the ways to flip three and four distinct positions of any codeword of a supported length, how many
are miscorrected, reported, detected and missed.
The spec's R95 is marked [derived: from rules R86 to R89 and R91]. -/
def Obligations.MultiErrorCounts : Prop :=
  ∀ d c : Bits, encodeData d = .ok c →
    (d.length = 8 →
      multiErrorCount c 3 .singleErrorCorrected = 220 ∧ multiErrorCount c 3 .uncorrectable = 66 ∧
      multiErrorCount c 4 .doubleErrorDetected = 660 ∧ multiErrorCount c 4 .noError = 55) ∧
    (d.length = 16 →
      multiErrorCount c 3 .singleErrorCorrected = 1052 ∧ multiErrorCount c 3 .uncorrectable = 488 ∧
      multiErrorCount c 4 .doubleErrorDetected = 7052 ∧ multiErrorCount c 4 .noError = 263) ∧
    (d.length = 32 →
      multiErrorCount c 3 .singleErrorCorrected = 6332 ∧ multiErrorCount c 3 .uncorrectable = 2807 ∧
      multiErrorCount c 4 .doubleErrorDetected = 80668 ∧ multiErrorCount c 4 .noError = 1583)

/-! ## The data flow and the harness store (outside the block) -/

/-- R93 at the port, over the block's own responses: the codeword ENC answers (R67, R55), with any one position flipped,
is answered by CORRECT (R83) with the codeword ENC gave, at that position. The order of the two requests is R5's data
flow. -/
def Obligations.DataFlowRepairsOneFlip : Prop :=
  ∀ (d c : Bits) (i : Nat) (s : State), encodeData d = .ok c → 1 ≤ i → i ≤ c.length →
    ∃ r r' : Response,
      Host.Core.run core 2 { s with requests := [encode (.enc d), encode (.correct (flipAt c i))] } =
        .next { requests := [], responses := s.responses ++ [r, r'] } ∧
      r.status = 0 ∧ r'.status = 0 ∧ r'.rdata = r.rdata ∧ r'.rlen = r.rlen ∧ r'.cls = 1 ∧ r'.pos.toInt = i

/-- R38 and R39: a write inside `[0, size)` fills its own slot only; outside it answers false and writes nothing; a
read is absent when the slot is empty or out of range. -/
def Obligations.StoreWriteThenRead : Prop :=
  ∀ (Note : Type) (st : CellStore Note) (a : Int) (d c : Bits),
    (0 ≤ a ∧ a < st.length →
      (storeWrite st a d c).1 = true ∧ (storeWrite st a d c).2.length = st.length ∧
      (∃ x, storeRead (storeWrite st a d c).2 a = some x ∧ x.originalData = d ∧ x.original = c ∧ x.current = c) ∧
      (∀ b, b ≠ a → storeRead (storeWrite st a d c).2 b = storeRead st b)) ∧
    (¬ (0 ≤ a ∧ a < st.length) → storeWrite st a d c = (false, st) ∧ storeRead st a = none) ∧
    (st[a.toNat]? = some none → storeRead st a = none)

/-- R37: flipBit fails outside the addresses and outside the positions; otherwise it flips the current codeword of its
own slot only and preserves the original. R40: a restore of a filled slot brings the original back and clears the
annotation, after a flip or without one. Two clauses are the model's choice of log 9 (DESIGN CHOICE): that a flip keeps
the annotation, and that an address out of range answers InvalidAddress even where the position is invalid too. -/
def Obligations.StoreFlipThenRestore : Prop :=
  ∀ (Note : Type) (st : CellStore Note) (a i : Int),
    (¬ (0 ≤ a ∧ a < st.length) → storeFlipBit st a i = .failed .invalidAddress ∧
      storeRestore st a = .failed .invalidAddress) ∧
    (∀ x, storeRead st a = some x → ¬ (1 ≤ i ∧ i ≤ x.current.length) →
      storeFlipBit st a i = .failed .invalidPosition) ∧
    (∀ x, storeRead st a = some x → 1 ≤ i → i ≤ x.current.length → ∃ st', storeFlipBit st a i = .done st' ∧
      storeRead st' a = some { x with current := flipAt x.current i.toNat } ∧
      (∀ b, b ≠ a → storeRead st' b = storeRead st b) ∧
      ∃ st'', storeRestore st' a = .done st'' ∧
        storeRead st'' a = some { x with current := x.original, annotation := none } ∧
        (∀ b, b ≠ a → storeRead st'' b = storeRead st b)) ∧
    (∀ x, storeRead st a = some x → ∃ st', storeRestore st a = .done st' ∧
      storeRead st' a = some { x with current := x.original, annotation := none } ∧
      (∀ b, b ≠ a → storeRead st' b = storeRead st b))
end

