-- ==== Sys2Proof/Laws/CellStore.lean ====
section
/-! SUPPORT. What a slot of the harness store holds after one slot is filled, and what each store action answers on a
filled slot (R37 to R40). -/

namespace Sys2Proof.Machine

variable {Note : Type} {st : CellStore Note} {a b : Int} {x : CodewordCell Note}

/-- A slot is there exactly inside `[0, size)`. -/
theorem slotOf_eq_none_iff : slotOf st a = none ↔ ¬ (0 ≤ a ∧ a < st.length) := by
  unfold slotOf
  split
  · simp; omega
  · rw [List.getElem?_eq_none_iff]; omega

/-- A cell is read exactly from a filled slot. -/
theorem storeRead_eq_some_iff : storeRead st a = some x ↔ slotOf st a = some (some x) := Option.join_eq_some_iff

@[simp] theorem length_putCell : (putCell st a x).length = st.length := by simp [putCell]

/-- The filled slot holds the cell. -/
theorem slotOf_putCell_self (h : slotOf st a ≠ none) : slotOf (putCell st a x) a = some (some x) := by
  obtain ⟨h0, hl⟩ := not_not.mp (mt slotOf_eq_none_iff.mpr h)
  simp [slotOf, putCell, show ¬ a < 0 by omega, show a.toNat < st.length by omega]

/-- Every other slot is as it was. -/
theorem slotOf_putCell_of_ne (ha : 0 ≤ a) (h : b ≠ a) : slotOf (putCell st a x) b = slotOf st b := by
  unfold slotOf putCell
  split
  · rfl
  · rw [List.getElem?_set_ne (by omega)]

/-- On a filled slot a flip inside the codeword fills the slot with the flipped cell, and any other fails. -/
theorem storeFlipBit_of_filled {i : Int} (h : slotOf st a = some (some x)) :
    storeFlipBit st a i =
      if 1 ≤ i ∧ i ≤ x.current.length then .done (putCell st a { x with current := flipAt x.current i.toNat })
      else .failed .invalidPosition := by
  simp [storeFlipBit, h]

/-- On a filled slot a restore fills the slot with the restored cell. -/
theorem storeRestore_of_filled (h : slotOf st a = some (some x)) :
    storeRestore st a = .done (putCell st a { x with current := x.original, annotation := none }) := by
  simp [storeRestore, h]

end Sys2Proof.Machine
end

