-- ==== Sys2Proof/Laws/Sequence.lean ====
section
/-! SUPPORT. Bit sequences: one spec lemma for each operation of Operands.lean, and parity as exclusive or. -/

namespace Sys2Proof.Machine

@[simp] theorem bitAt_zero (c : Bits) : bitAt c 0 = false := rfl

@[simp] theorem bitAt_succ (c : Bits) (k : Nat) : bitAt c (k + 1) = c.getD k false := rfl

@[simp] theorem setAt_zero (c : Bits) (b : Bit) : setAt c 0 b = c := rfl

@[simp] theorem setAt_succ (c : Bits) (k : Nat) (b : Bit) : setAt c (k + 1) b = c.set k b := rfl

@[simp] theorem length_setAt (c : Bits) (j : Nat) (b : Bit) : (setAt c j b).length = c.length := by
  cases j <;> simp

@[simp] theorem length_flipAt (c : Bits) (i : Nat) : (flipAt c i).length = c.length := length_setAt _ _ _

/-- No bit is read above the last position. -/
theorem bitAt_of_length_lt {c : Bits} {j : Nat} (h : c.length < j) : bitAt c j = false := by
  cases j with
  | zero => rfl
  | succ k => rw [bitAt_succ, List.getD_eq_default]; omega

/-- Reading after writing one position. -/
theorem bitAt_setAt {c : Bits} {i : Nat} (hi : 1 ≤ i) (hl : i ≤ c.length) (j : Nat) (b : Bit) :
    bitAt (setAt c i b) j = if j = i then b else bitAt c j := by
  obtain ⟨i, rfl⟩ : ∃ k, i = k + 1 := ⟨i - 1, by omega⟩
  cases j with
  | zero => simp
  | succ k =>
    simp only [setAt_succ, bitAt_succ, List.getD_eq_getElem?_getD, List.getElem?_set, Nat.add_right_cancel_iff]
    split_ifs with h1 h2 h3 h4
    · rfl
    · omega
    · omega
    · omega
    · omega
    · rfl

/-- The rule of R13: the flipped position is inverted and every other position is unchanged. -/
theorem bitAt_flipAt {c : Bits} {i : Nat} (hi : 1 ≤ i) (hl : i ≤ c.length) (j : Nat) :
    bitAt (flipAt c i) j = if j = i then !bitAt c i else bitAt c j := bitAt_setAt hi hl j _

/-- Two sequences of one length with the same bit at every position are equal. -/
theorem ext_bitAt {a b : Bits} (hl : a.length = b.length)
    (h : ∀ j, 1 ≤ j → j ≤ a.length → bitAt a j = bitAt b j) : a = b := by
  refine List.ext_getElem hl fun k h1 h2 => ?_
  have := h (k + 1) (by omega) (by omega)
  simpa [List.getD_eq_getElem, h1, h2] using this

/-- Flipping one position twice gives the sequence back. -/
theorem flipAt_flipAt {c : Bits} {i : Nat} (hi : 1 ≤ i) (hl : i ≤ c.length) : flipAt (flipAt c i) i = c := by
  refine ext_bitAt (by simp) fun j _ _ => ?_
  rw [bitAt_flipAt hi (by simpa using hl), bitAt_flipAt hi hl, bitAt_flipAt hi hl]
  split <;> simp_all

@[simp] theorem mem_positionsUpTo {n j : Nat} : j ∈ positionsUpTo n ↔ 1 ≤ j ∧ j ≤ n := by
  simp [positionsUpTo, List.mem_range'_1]; omega

@[simp] theorem length_positionsUpTo (n : Nat) : (positionsUpTo n).length = n := by simp [positionsUpTo]

theorem positionsUpTo_succ (n : Nat) : positionsUpTo (n + 1) = positionsUpTo n ++ [n + 1] := by
  simp [positionsUpTo, List.range'_concat, Nat.add_comm]

theorem nodup_positionsUpTo (n : Nat) : (positionsUpTo n).Nodup := List.nodup_range'

@[simp] theorem length_secPart (c : Bits) : (secPart c).length = c.length - 1 := by simp [secPart]

/-- The secPart has the codeword's bits at its own positions (R78). -/
theorem bitAt_secPart {c : Bits} {j : Nat} (h : j ≤ c.length - 1) : bitAt (secPart c) j = bitAt c j := by
  cases j with
  | zero => rfl
  | succ k =>
    have : k < c.dropLast.length := by simp; omega
    have hk : k < c.length := by omega
    simp [secPart, List.getD_eq_getElem?_getD, show k < c.length - 1 by omega, hk]

/-- A sequence with a last element is its secPart and its overall bit (R78). -/
theorem secPart_append_overallBit {c : Bits} (h : c ≠ []) : secPart c ++ [overallBit c] = c := by
  have hl : c.length - 1 + 1 = c.length := Nat.sub_add_cancel (List.length_pos_iff.mpr h)
  have : overallBit c = c.getLast h := by
    rw [overallBit, ← hl, bitAt_succ, List.getLast_eq_getElem, List.getD_eq_getElem]
  rw [this, secPart, List.dropLast_append_getLast h]

@[simp] theorem odd_zero : odd 0 = false := rfl

/-- The parity of a sum is the exclusive or of the parities. -/
theorem odd_add (a b : Nat) : odd (a + b) = xor (odd a) (odd b) := by
  unfold odd
  rcases Nat.mod_two_eq_zero_or_one a with ha | ha <;> rcases Nat.mod_two_eq_zero_or_one b with hb | hb <;>
    simp [Nat.add_mod, ha, hb]

@[simp] theorem odd_toNat (b : Bool) : odd b.toNat = b := by cases b <;> rfl

/-- A number is odd or even as its lowest bit says. -/
theorem odd_eq_testBit (n : Nat) : odd n = n.testBit 0 := by simp [odd, Nat.testBit_zero]

theorem ones_append (a b : Bits) : ones (a ++ b) = ones a + ones b := by simp [ones]

theorem ones_singleton (b : Bit) : ones [b] = b.toNat := by cases b <;> rfl

/-- The 1-bits counted by position are the 1-bits of the sequence (R9). -/
theorem countP_bitAt (c : Bits) : (positionsUpTo c.length).countP (bitAt c) = ones c := by
  induction c using List.reverseRecOn with
  | nil => rfl
  | append_singleton c b ih =>
    rw [List.length_append, List.length_singleton, positionsUpTo_succ, List.countP_append, ones_append, ones_singleton,
      ← ih]
    congr 1
    · refine List.countP_congr fun j hj => ?_
      obtain ⟨h1, h2⟩ := mem_positionsUpTo.mp hj
      obtain ⟨k, rfl⟩ : ∃ k, j = k + 1 := ⟨j - 1, by omega⟩
      simp [List.getD_eq_getElem?_getD, List.getElem?_append_left (show k < c.length by omega)]
    · cases b <;> simp [List.getD_eq_getElem?_getD]

/-- A sequence is the list of its bits by position. -/
theorem map_bitAt_positionsUpTo (c : Bits) : (positionsUpTo c.length).map (bitAt c) = c := by
  refine List.ext_getElem (by simp) fun i h1 h2 => ?_
  simp [positionsUpTo, Nat.add_comm 1, List.getD_eq_getElem?_getD, h2]

/-- Appending a bit leaves the positions before it alone. -/
theorem bitAt_append_singleton (c : Bits) (b : Bit) {j : Nat} (h : j ≤ c.length) : bitAt (c ++ [b]) j = bitAt c j := by
  cases j with
  | zero => rfl
  | succ k => simp [List.getD_eq_getElem?_getD, List.getElem?_append_left (show k < c.length by omega)]

/-- The bits of an elementwise exclusive or. -/
theorem bitAt_xorBits {a b : Bits} (h : a.length = b.length) (j : Nat) :
    bitAt (xorBits a b) j = xor (bitAt a j) (bitAt b j) := by
  cases j with
  | zero => rfl
  | succ k =>
    simp only [bitAt_succ, xorBits, List.getD_eq_getElem?_getD, List.getElem?_zipWith]
    by_cases hk : k < a.length
    · simp [hk, show k < b.length by omega]
    · simp [List.getElem?_eq_none (show a.length ≤ k by omega), List.getElem?_eq_none (show b.length ≤ k by omega)]

/-- The parity of a count over an exclusive or is the exclusive or of the parities. -/
theorem odd_countP_xor (l : List Nat) (p f g : Nat → Bool) :
    odd (l.countP fun j => p j && xor (f j) (g j)) =
      xor (odd (l.countP fun j => p j && f j)) (odd (l.countP fun j => p j && g j)) := by
  induction l with
  | nil => rfl
  | cons j l ih =>
    rw [List.countP_cons, List.countP_cons, List.countP_cons, odd_add, odd_add, odd_add, ih]
    cases p j <;> cases f j <;> cases g j <;> cases odd (l.countP fun j => p j && f j) <;>
      cases odd (l.countP fun j => p j && g j) <;> rfl

/-- A power of two selects one bit (R70, R80: the covering rule at a parity position). -/
theorem and_two_pow_ne_zero (j k : Nat) : (j &&& 2 ^ k != 0) = j.testBit k := by
  rw [Nat.and_two_pow]
  cases j.testBit k <;> simp

/-- The overall parity turns with every flip inside the sequence (R91). -/
theorem overallParityOdd_flipAt {c : Bits} {i : Nat} (hi : 1 ≤ i) (hl : i ≤ c.length) :
    overallParityOdd (flipAt c i) = !overallParityOdd c := by
  obtain ⟨k, rfl⟩ : ∃ k, i = k + 1 := ⟨i - 1, by omega⟩
  have hk : k < c.length := by omega
  obtain ⟨a, b, t, rfl, rfl⟩ : ∃ (a : Bits) (b : Bit) (t : Bits), c = a ++ b :: t ∧ a.length = k :=
    ⟨c.take k, c.get ⟨k, hk⟩, c.drop (k + 1), by simp, by simp; omega⟩
  have hf : flipAt (a ++ b :: t) (a.length + 1) = a ++ (!b) :: t := by simp [flipAt]
  have hs : ∀ x : Bool, ones (a ++ x :: t) = ones a + x.toNat + ones t := by
    intro x
    rw [ones_append, ← List.singleton_append, ones_append, ones_singleton]; omega
  rw [hf, overallParityOdd, overallParityOdd, hs, hs, odd_add, odd_add, odd_add, odd_add, odd_toNat, odd_toNat]
  cases odd (ones a) <;> cases odd (ones t) <;> cases b <;> rfl

end Sys2Proof.Machine
end

