-- ==== Sys2Proof/Laws/Layout.lean ====
section
/-! SUPPORT. The two loops of the parity layout: what the search of R60 ends on, and which powers of two the walk of
R62 and R79 lists. -/

namespace Sys2Proof.Machine

/-- With fuel to reach a number that meets the bound, the search from `p` ends on the least such number from `p` on. -/
theorem parityCountFrom_spec (m : Nat) (fuel p : Nat) (hf : m + (p + fuel) + 1 ≤ 2 ^ (p + fuel)) :
    p ≤ parityCountFrom m fuel p ∧ parityCountFrom m fuel p ≤ p + fuel ∧
      m + parityCountFrom m fuel p + 1 ≤ 2 ^ parityCountFrom m fuel p ∧
      ∀ k, p ≤ k → k < parityCountFrom m fuel p → 2 ^ k < m + k + 1 := by
  induction fuel generalizing p with
  | zero => exact ⟨le_rfl, le_rfl, hf, fun k h1 h2 => absurd h2 (by simp [parityCountFrom]; omega)⟩
  | succ fuel ih =>
    unfold parityCountFrom
    split
    case isTrue h => exact ⟨le_rfl, by omega, h, fun k h1 h2 => absurd h2 (by omega)⟩
    case isFalse h =>
      obtain ⟨h1, h2, h3, h4⟩ := ih (p + 1) (by rw [show p + 1 + fuel = p + (fuel + 1) by omega]; exact hf)
      refine ⟨by omega, by omega, h3, fun k hk hlt => ?_⟩
      rcases Nat.eq_or_lt_of_le hk with rfl | hk
      · omega
      · exact h4 k hk hlt

/-- The walk is the run of powers up to the first that exceeds `n` (R62). -/
theorem powersUpTo_eq_takeWhile (n count k : Nat) :
    powersUpTo n count k = ((List.range' k count).map (2 ^ ·)).takeWhile (· ≤ n) := by
  induction count generalizing k with
  | zero => rfl
  | succ count ih =>
    rw [powersUpTo, List.range'_succ, List.map_cons, List.takeWhile_cons, ih]
    by_cases h : 2 ^ k ≤ n
    · simp [h, Nat.not_lt.mpr h]
    · simp [h, Nat.lt_of_not_le h]

/-- Which numbers the walk lists. -/
theorem mem_powersUpTo {n count k q : Nat} :
    q ∈ powersUpTo n count k ↔ ∃ j, k ≤ j ∧ j < k + count ∧ q = 2 ^ j ∧ 2 ^ j ≤ n := by
  induction count generalizing k with
  | zero => simp [powersUpTo]; omega
  | succ count ih =>
    rw [powersUpTo]
    split
    case isTrue h =>
      simp only [List.not_mem_nil, false_iff, not_exists, not_and]
      intro j h1 _ _
      exact Nat.not_le.mpr (lt_of_lt_of_le h (Nat.pow_le_pow_right (by omega) h1))
    case isFalse h =>
      rw [List.mem_cons, ih]
      constructor
      · rintro (rfl | ⟨j, h1, h2, h3⟩)
        · exact ⟨k, le_rfl, by omega, rfl, by omega⟩
        · exact ⟨j, by omega, by omega, h3⟩
      · rintro ⟨j, h1, h2, rfl, h4⟩
        rcases Nat.eq_or_lt_of_le h1 with rfl | h1
        · exact .inl rfl
        · exact .inr ⟨j, by omega, by omega, rfl, h4⟩

/-- The elements of a position sequence (R62). -/
theorem mem_parityPositions {p n q : Nat} : q ∈ parityPositions p n ↔ ∃ j, j < p ∧ q = 2 ^ j ∧ 2 ^ j ≤ n := by
  rw [parityPositions, mem_powersUpTo]; simp

/-- The elements of the inferred positions (R79). -/
theorem mem_inferredPositions {cap len q : Nat} :
    q ∈ inferredPositions cap len ↔ ∃ j, j < cap ∧ q = 2 ^ j ∧ 2 ^ j ≤ len := by
  rw [inferredPositions, mem_powersUpTo]; simp

/-- The walk is a prefix of the powers of two, so its length alone determines it (R65). -/
theorem powersUpTo_eq_map (n count k : Nat) :
    powersUpTo n count k = (List.range' k (powersUpTo n count k).length).map (2 ^ ·) := by
  induction count generalizing k with
  | zero => rfl
  | succ count ih =>
    rw [powersUpTo]
    split
    · rfl
    · rw [List.length_cons, List.range'_succ, List.map_cons, ← ih]

/-- From `2^0` on, the walk is the powers below its length (R65). -/
theorem powersUpTo_zero_eq_map (n count : Nat) :
    powersUpTo n count 0 = (List.range (powersUpTo n count 0).length).map (2 ^ ·) := by
  rw [List.range_eq_range']; exact powersUpTo_eq_map n count 0

/-- Which powers the walk from `2^0` lists, by its length. -/
theorem two_pow_mem_powersUpTo {n count k : Nat} :
    2 ^ k ∈ powersUpTo n count 0 ↔ k < (powersUpTo n count 0).length := by
  constructor
  · intro h
    rw [powersUpTo_zero_eq_map] at h
    obtain ⟨j, hj, he⟩ := List.mem_map.mp h
    rw [← Nat.pow_right_injective (le_refl 2) he]
    exact List.mem_range.mp hj
  · intro h
    rw [powersUpTo_zero_eq_map]
    exact List.mem_map.mpr ⟨k, List.mem_range.mpr h, rfl⟩

/-- At the port at most six powers fit (D9: every position is at most 63). -/
theorem length_powersUpTo_le_six {n : Nat} (count : Nat) (h : n ≤ 63) : (powersUpTo n count 0).length ≤ 6 := by
  by_contra hcon
  obtain ⟨j, _, _, h3, h4⟩ := mem_powersUpTo.mp (two_pow_mem_powersUpTo.mpr (Nat.lt_of_not_le hcon))
  omega

/-- The walk is no longer than its bound. -/
theorem length_powersUpTo_le (n count k : Nat) : (powersUpTo n count k).length ≤ count := by
  induction count generalizing k with
  | zero => simp [powersUpTo]
  | succ count ih =>
    rw [powersUpTo]
    split
    · simp
    · simpa using ih (k + 1)

/-- A bound on the count beyond the powers that fit changes nothing. -/
theorem powersUpTo_of_lt {n k : Nat} (count more : Nat) (h : n < 2 ^ (k + count)) :
    powersUpTo n (count + more) k = powersUpTo n count k := by
  induction count generalizing k with
  | zero =>
    cases more with
    | zero => rfl
    | succ more => rw [Nat.zero_add, powersUpTo, powersUpTo, if_pos (by simpa using h)]
  | succ count ih =>
    rw [show count + 1 + more = count + more + 1 by omega, powersUpTo, powersUpTo,
      ih (by rw [show k + 1 + count = k + (count + 1) by omega]; exact h)]

end Sys2Proof.Machine
end

