-- ==== Sys2Proof/Laws/Codeword.lean ====
section
/-! SUPPORT. The encoder's and the decoder's functions: lengths, what a flip does to a check, and the branches of
`correct`. -/

namespace Sys2Proof.Machine

@[simp] theorem length_placeData (ps : List Nat) (fill : Nat → Bit) (js : List Nat) (d : Bits) :
    (placeData ps fill js d).length = js.length := by
  induction js generalizing d with
  | nil => rfl
  | cons j js ih => rw [placeData]; split <;> simp [ih]

@[simp] theorem length_writeParity (c : Bits) (q : Nat) : (writeParity c q).length = c.length := length_setAt _ _ _

@[simp] theorem length_foldl_writeParity (ps : List Nat) (c : Bits) : (ps.foldl writeParity c).length = c.length := by
  induction ps generalizing c with
  | nil => rfl
  | cons q ps ih => rw [List.foldl_cons, ih, length_writeParity]

@[simp] theorem length_secCodeword (fill : Nat → Bit) (d : Bits) :
    (secCodeword fill d).length = d.length + parityCount d.length := by simp [secCodeword]

@[simp] theorem length_codewordWith (fill : Nat → Bit) (d : Bits) :
    (codewordWith fill d).length = d.length + parityCount d.length + 1 := by simp [codewordWith, appendOverall]

/-- When `encode` answers, the length was a supported one and the answer is the codeword (R72). -/
theorem encodeData_eq_ok {d c : Bits} (h : encodeData d = .ok c) : Supported d ∧ c = codewordOf d := by
  unfold encodeData at h
  split at h
  case isTrue hm => exact ⟨hm, (Except.ok.inj h).symm⟩
  case isFalse => cases h

/-- Two sequences with the same covered bits have the same count at a parity position. -/
theorem coverCount_congr {a b : Bits} (hl : a.length = b.length) (q : Nat)
    (h : ∀ j, 1 ≤ j → j ≤ a.length → j ≠ q → j &&& q ≠ 0 → bitAt a j = bitAt b j) : coverCount a q = coverCount b q := by
  unfold coverCount
  rw [hl]
  refine List.countP_congr fun j hj => ?_
  obtain ⟨h1, h2⟩ := mem_positionsUpTo.mp hj
  by_cases hq : j = q
  · simp [hq]
  · by_cases hz : j &&& q = 0
    · simp [hz]
    · rw [h j h1 (by omega) hq hz]

/-- Step 3 over positions that do not cover one another (R65, R70): each written position holds the parity of the bits
it covers in the sequence step 3 began with, every other position is unchanged. -/
theorem bitAt_foldl_writeParity (ps : List Nat) (c : Bits) (hps : ∀ q ∈ ps, 1 ≤ q ∧ q ≤ c.length)
    (hd : ∀ q ∈ ps, ∀ q' ∈ ps, q ≠ q' → q &&& q' = 0) (j : Nat) :
    bitAt (ps.foldl writeParity c) j = if j ∈ ps then odd (coverCount c j) else bitAt c j := by
  induction ps generalizing c with
  | nil => simp
  | cons q ps ih =>
    have hq := hps q (by simp)
    have hw : ∀ j, bitAt (writeParity c q) j = if j = q then odd (coverCount c q) else bitAt c j :=
      fun j => bitAt_setAt hq.1 hq.2 j _
    rw [List.foldl_cons, ih _ (fun x hx => by rw [length_writeParity]; exact hps x (by simp [hx]))
      (fun x hx y hy => hd x (by simp [hx]) y (by simp [hy]))]
    by_cases hj : j ∈ ps
    · simp only [hj, if_true, List.mem_cons, or_true]
      congr 1
      refine coverCount_congr (by simp) j fun i _ _ h3 h4 => ?_
      rw [hw, if_neg]
      rintro rfl
      exact h4 (hd _ (by simp) _ (by simp [hj]) h3)
    · rw [if_neg hj, hw]
      by_cases hjq : j = q
      · subst hjq; simp
      · simp [hj, hjq]

/-- Step 2 (R68): read back at the positions that are not parity positions, in order, the placed sequence is the data,
where there are as many of them as data elements. -/
theorem placeData_readback (ps : List Nat) (fill : Nat → Bit) (js : List Nat) (d : Bits) (f : Nat → Bit)
    (hf : placeData ps fill js d = js.map f) (hl : (js.filter fun j => decide (j ∉ ps)).length = d.length) :
    (js.filter fun j => decide (j ∉ ps)).map f = d := by
  induction js generalizing d with
  | nil => simpa using (List.eq_nil_of_length_eq_zero hl.symm).symm
  | cons j js ih =>
    rw [placeData] at hf
    by_cases hj : j ∈ ps
    · rw [if_pos hj, List.map_cons, List.cons.injEq] at hf
      rw [List.filter_cons_of_neg (by simpa using hj)] at hl ⊢
      exact ih d hf.2 hl
    · rw [if_neg hj, List.map_cons, List.cons.injEq] at hf
      rw [List.filter_cons_of_pos (by simpa using hj)] at hl ⊢
      cases d with
      | nil => simp at hl
      | cons b d =>
        rw [List.map_cons, ← hf.1, ih d hf.2 (by simpa using hl)]
        rfl

/-- The decoder's count at a parity position is the encoder's and the parity bit itself (C3). -/
theorem checkCount_eq_coverCount_add {sec : Bits} {q : Nat} (h1 : 1 ≤ q) (h2 : q ≤ sec.length) :
    checkCount sec q = coverCount sec q + (bitAt sec q).toNat := by
  have hperm : (positionsUpTo sec.length).Perm (q :: (positionsUpTo sec.length).erase q) :=
    List.perm_cons_erase (mem_positionsUpTo.mpr ⟨h1, h2⟩)
  have hrest : ((positionsUpTo sec.length).erase q).countP (fun j => j != q && (j &&& q != 0) && bitAt sec j) =
      ((positionsUpTo sec.length).erase q).countP (fun j => (j &&& q != 0) && bitAt sec j) := by
    refine List.countP_congr fun j hj => ?_
    simp [((nodup_positionsUpTo _).mem_erase_iff.mp hj).1]
  unfold checkCount coverCount
  rw [hperm.countP_eq, hperm.countP_eq, List.countP_cons, List.countP_cons, hrest]
  have : q &&& q ≠ 0 := by simp; omega
  cases bitAt sec q <;> simp; omega

/-- A sum of chosen powers of two has the chosen bits (R80: distinct powers added are their bitwise OR). -/
theorem testBit_sum_powers (p : Nat → Bool) (n i : Nat) :
    (((List.range n).map (2 ^ ·)).filter p).sum < 2 ^ n ∧
      (((List.range n).map (2 ^ ·)).filter p).sum.testBit i = (decide (i < n) && p (2 ^ i)) := by
  induction n generalizing i with
  | zero => simp
  | succ n ih =>
    rw [List.range_succ, List.map_append, List.filter_append, List.sum_append]
    obtain ⟨h1, h2⟩ := ih i
    by_cases hp : p (2 ^ n) = true
    · rw [show (List.filter p (List.map (fun x => 2 ^ x) [n])).sum = 2 ^ n by simp [hp]]
      refine ⟨by rw [pow_succ]; omega, ?_⟩
      rw [Nat.add_comm]
      rcases Nat.lt_trichotomy i n with hi | rfl | hi
      · rw [Nat.testBit_two_pow_add_gt hi, h2]; simp [hi, Nat.lt_succ_of_lt hi]
      · rw [Nat.testBit_two_pow_add_eq, h2]; simp [hp]
      · have hlt : 2 ^ n + (((List.range n).map (2 ^ ·)).filter p).sum < 2 ^ i := by
          have := Nat.pow_le_pow_right (show 0 < 2 by decide) (show n + 1 ≤ i from hi)
          rw [pow_succ] at this; omega
        rw [Nat.testBit_lt_two_pow hlt]; simp [show ¬ i < n + 1 by omega]
    · rw [show (List.filter p (List.map (fun x => 2 ^ x) [n])).sum = 0 by simp [hp], Nat.add_zero, h2]
      refine ⟨by rw [pow_succ]; omega, ?_⟩
      rcases Nat.lt_trichotomy i n with hi | rfl | hi
      · simp [hi, Nat.lt_succ_of_lt hi]
      · simp [hp]
      · simp [show ¬ i < n by omega, show ¬ i < n + 1 by omega]

/-- The syndrome over inferred positions, bit by bit (R80). -/
theorem syndromeOf_spec (cap len : Nat) (sec : Bits) :
    syndromeOf (inferredPositions cap len) sec < 2 ^ (inferredPositions cap len).length ∧
      ∀ i, (syndromeOf (inferredPositions cap len) sec).testBit i =
        (decide (2 ^ i ∈ inferredPositions cap len) && odd (checkCount sec (2 ^ i))) := by
  have hs : inferredPositions cap len = (List.range (inferredPositions cap len).length).map (2 ^ ·) :=
    powersUpTo_zero_eq_map len cap
  have hm : ∀ k, 2 ^ k ∈ inferredPositions cap len ↔ k < (inferredPositions cap len).length :=
    fun k => two_pow_mem_powersUpTo
  unfold syndromeOf
  generalize inferredPositions cap len = ps at *
  generalize ps.length = n at *
  subst hs
  refine ⟨(testBit_sum_powers _ n 0).1, fun i => ?_⟩
  rw [(testBit_sum_powers (fun q => odd (checkCount sec q)) n i).2]
  simp only [hm]

/-- The number of chosen positions that hold a 1 changes parity with a flip at a chosen position, and only then. -/
theorem odd_countP_flipAt (p : Nat → Bool) {c : Bits} {i : Nat} (hi : 1 ≤ i) (hl : i ≤ c.length) :
    odd ((positionsUpTo c.length).countP fun j => p j && bitAt (flipAt c i) j) =
      xor (odd ((positionsUpTo c.length).countP fun j => p j && bitAt c j)) (p i) := by
  have hperm : (positionsUpTo c.length).Perm (i :: (positionsUpTo c.length).erase i) :=
    List.perm_cons_erase (mem_positionsUpTo.mpr ⟨hi, hl⟩)
  have hrest : ((positionsUpTo c.length).erase i).countP (fun j => p j && bitAt (flipAt c i) j) =
      ((positionsUpTo c.length).erase i).countP (fun j => p j && bitAt c j) := by
    refine List.countP_congr fun j hj => ?_
    rw [bitAt_flipAt hi hl, if_neg ((nodup_positionsUpTo _).mem_erase_iff.mp hj).1]
  rw [hperm.countP_eq, hperm.countP_eq, List.countP_cons, List.countP_cons, hrest, odd_add, odd_add,
    bitAt_flipAt hi hl, if_pos rfl]
  cases p i <;> cases bitAt c i <;> simp [odd]

/-- A flip inside the secPart inverts exactly the checks that cover its position (R91, R92). -/
theorem odd_checkCount_flipAt {sec : Bits} {i : Nat} (hi : 1 ≤ i) (hl : i ≤ sec.length) (q : Nat) :
    odd (checkCount (flipAt sec i) q) = xor (odd (checkCount sec q)) (i &&& q != 0) := by
  rw [checkCount, length_flipAt]
  exact odd_countP_flipAt (fun j => j &&& q != 0) hi hl

/-- Flipping inside the secPart is flipping the secPart. -/
theorem secPart_flipAt {c : Bits} {i : Nat} (hi : 1 ≤ i) (hl : i ≤ c.length - 1) :
    secPart (flipAt c i) = flipAt (secPart c) i := by
  refine ext_bitAt (by simp) fun j _ hj => ?_
  simp only [length_secPart, length_flipAt] at hj
  rw [bitAt_secPart (by simpa using hj), bitAt_flipAt hi (by omega), bitAt_flipAt hi (by simpa using hl),
    bitAt_secPart hl, bitAt_secPart hj]

/-- Flipping the overall bit leaves the secPart alone. -/
theorem secPart_flipAt_length (c : Bits) : secPart (flipAt c c.length) = secPart c := by
  cases h : c.length with
  | zero => simp [flipAt]
  | succ n =>
    refine ext_bitAt (by simp) fun j _ hj => ?_
    simp only [length_secPart, length_flipAt] at hj
    rw [bitAt_secPart (by simpa using hj), bitAt_flipAt (by omega) (by omega), if_neg (by omega), bitAt_secPart hj]

/-- `analyze` of a nonempty codeword, field by field (R78 to R82). -/
theorem analyzeWith_of_ne_nil (cap : Nat) {c : Bits} (h : c ≠ []) :
    analyzeWith cap c =
      { syndrome := syndromeOf (inferredPositions cap (c.length - 1)) (secPart c)
        parityOdd := overallParityOdd c
        pSec := (inferredPositions cap (c.length - 1)).length
        positions := inferredPositions cap (c.length - 1) } := by
  rw [analyzeWith, if_neg (by simpa using h)]; simp only [length_secPart]

/-- Everything `correct` can do: the codeword is returned as it came, or with one position flipped and reported. -/
theorem correctWith_cases (cap : Nat) (c : Bits) :
    ((correctWith cap c).codeword = c ∧ (correctWith cap c).classification ≠ .singleErrorCorrected) ∨
    ∃ i, 1 ≤ i ∧ i ≤ c.length ∧
      correctWith cap c = { codeword := flipAt c i, classification := .singleErrorCorrected, position := i } := by
  unfold correctWith
  split
  case isTrue => exact .inl ⟨rfl, by simp⟩
  case isFalse hne =>
    simp only []
    split
    case h_1 => exact .inl ⟨rfl, by simp⟩
    case h_2 => exact .inr ⟨c.length, by omega, le_rfl, rfl⟩
    case h_3 =>
      split
      case isTrue hr =>
        unfold verifiedFlip
        simp only []
        split
        case isTrue => exact .inr ⟨_, hr.1, by omega, rfl⟩
        case isFalse => exact .inl ⟨rfl, by simp⟩
      case isFalse => exact .inl ⟨rfl, by simp⟩
    case h_4 => exact .inl ⟨rfl, by simp⟩

/-- CORRECT keeps the length of its codeword (R83). -/
theorem length_correctWith (cap : Nat) (c : Bits) : (correctWith cap c).codeword.length = c.length := by
  rcases correctWith_cases cap c with ⟨h, -⟩ | ⟨i, -, -, h⟩
  · rw [h]
  · rw [h]; exact length_flipAt c i

end Sys2Proof.Machine
end

