-- ==== Sys2Proof/Laws/Decode.lean ====
section
/-! SUPPORT. The request word: its fields after packing, bit sequences as numbers, and what `decode` can answer. -/

namespace Sys2Proof

theorem fitsLen_iff {n : Nat} : fitsLen n = true ↔ n < 64 := by
  rw [fitsLen, decide_eq_true_iff]; rfl

theorem opField_lt (q : Request) : opField q < 16 := (q.extractLsb' 0 4).isLt

theorem lenField_lt (q : Request) : lenField q < 64 := (q.extractLsb' 4 6).isLt

theorem auxField_lt (q : Request) : auxField q < 64 := (q.extractLsb' 10 6).isLt

theorem opField_eq (q : Request) : opField q = q.toNat % 16 := by
  simp [opField, BitVec.extractLsb'_toNat]

theorem lenField_eq (q : Request) : lenField q = q.toNat / 16 % 64 := by
  simp [lenField, BitVec.extractLsb'_toNat, Nat.shiftRight_eq_div_pow]

theorem auxField_eq (q : Request) : auxField q = q.toNat / 1024 % 64 := by
  simp [auxField, BitVec.extractLsb'_toNat, Nat.shiftRight_eq_div_pow]

@[simp] theorem length_payloadSeq (q : Request) (len : Nat) : (payloadSeq q len).length = len := by
  simp [payloadSeq]

/-- Element `i` of the payload sequence is `REQ[16+i]` (R45). -/
theorem payloadSeq_getElem? (q : Request) {len i : Nat} (h : i < len) :
    (payloadSeq q len)[i]? = some (q.getLsbD (16 + i)) := by
  simp [payloadSeq, h]

/-- A sequence as a number is below two to its length. -/
theorem bitsToNat_lt (b : Bits) : bitsToNat b < 2 ^ b.length := by
  induction b with
  | nil => simp [bitsToNat]
  | cons x b ih =>
    rw [bitsToNat, List.length_cons, Nat.pow_succ]
    have := x.toNat_le
    omega

/-- Bit `i` of the number is element `i`, and 0 above the sequence (R26, R55). -/
theorem testBit_bitsToNat (b : Bits) (i : Nat) : (bitsToNat b).testBit i = b.getD i false := by
  induction b generalizing i with
  | nil => simp [bitsToNat]
  | cons x b ih =>
    cases i with
    | zero => cases x <;> simp [bitsToNat, Nat.testBit_zero, Nat.add_mod]
    | succ i =>
      rw [Nat.testBit_succ, bitsToNat, List.getD_cons_succ, ← ih]
      congr 1
      cases x
      · rw [Bool.toNat_false]; omega
      · rw [Bool.toNat_true]; omega

/-- The number of a word packed from fields that fit (R41). -/
theorem packRequest_toNat {payload a l op : Nat} (hp : payload < 2 ^ 64) (ha : a < 64) (hl : l < 64) (ho : op < 16) :
    (packRequest payload a l op).toNat = payload * 2 ^ 16 + a * 2 ^ 10 + l * 2 ^ 4 + op := by
  rw [packRequest, BitVec.toNat_ofNat, Nat.mod_eq_of_lt]
  omega

theorem opField_packRequest {payload a l op : Nat} (hp : payload < 2 ^ 64) (ha : a < 64) (hl : l < 64)
    (ho : op < 16) : opField (packRequest payload a l op) = op := by
  rw [opField_eq, packRequest_toNat hp ha hl ho]; omega

theorem lenField_packRequest {payload a l op : Nat} (hp : payload < 2 ^ 64) (ha : a < 64) (hl : l < 64)
    (ho : op < 16) : lenField (packRequest payload a l op) = l := by
  rw [lenField_eq, packRequest_toNat hp ha hl ho]; omega

theorem auxField_packRequest {payload a l op : Nat} (hp : payload < 2 ^ 64) (ha : a < 64) (hl : l < 64)
    (ho : op < 16) : auxField (packRequest payload a l op) = a := by
  rw [auxField_eq, packRequest_toNat hp ha hl ho]; omega

theorem payloadField_eq (q : Request) : payloadField q = q.toNat / 65536 := by
  have := q.isLt
  simp [payloadField, BitVec.extractLsb'_toNat, Nat.shiftRight_eq_div_pow]
  omega

theorem payloadField_packRequest {payload a l op : Nat} (hp : payload < 2 ^ 64) (ha : a < 64) (hl : l < 64)
    (ho : op < 16) : payloadField (packRequest payload a l op) = payload := by
  rw [payloadField_eq, packRequest_toNat hp ha hl ho]; omega

/-- Bit `16+i` of a packed word is payload bit `i` (R45). -/
theorem getLsbD_packRequest {payload a l op : Nat} (hp : payload < 2 ^ 64) (ha : a < 64) (hl : l < 64) (ho : op < 16)
    (i : Nat) : (packRequest payload a l op).getLsbD (16 + i) = payload.testBit i := by
  rw [← BitVec.testBit_toNat, packRequest_toNat hp ha hl ho, Nat.add_comm 16, Nat.testBit_add]
  congr 1
  omega

/-- A word whose payload bits are the elements of a sequence carries that sequence (R45). -/
theorem payloadSeq_eq {q : Request} {b : Bits} (h : ∀ i, i < b.length → q.getLsbD (16 + i) = b.getD i false) :
    payloadSeq q b.length = b := by
  refine List.ext_getElem (by simp) fun i h1 h2 => ?_
  simp only [payloadSeq, List.getElem_map, List.getElem_range]
  rw [h i h2, List.getD_eq_getElem _ _ h2]

/-- What `decode` can answer, once (R46, R49): one operation for each OP of 0..4, and a named rejection above. -/
theorem decode_cases (q : Request) :
    (opField q = 0 ∧ decode q = .ok (.pcount (lenField q))) ∨
    (opField q = 1 ∧ decode q = .ok (.ppos (lenField q) (auxField q))) ∨
    (opField q = 2 ∧ decode q = .ok (.enc (payloadSeq q (lenField q)))) ∨
    (opField q = 3 ∧ decode q = .ok (.analyze (payloadSeq q (lenField q)))) ∨
    (opField q = 4 ∧ decode q = .ok (.correct (payloadSeq q (lenField q)))) ∨
    (5 ≤ opField q ∧ decode q = .error (.reservedOp (opField q))) := by
  have hlt := opField_lt q
  unfold decode
  generalize opField q = op at hlt ⊢
  interval_cases op <;> simp

end Sys2Proof
end

