-- ==== Sys2Proof/Laws/Ops.lean ====
section
/-! SUPPORT. The shared operations: what `serve` answers, and what the response fields hold. -/

namespace Sys2Proof.Machine

/-- An operation that a request word can carry is answered. -/
theorem serve_of_wellFormed {i : Instr} (h : i.WellFormed) (r : Response) (s : State) :
    serve i r s = .next (s.answer r) := if_pos h

/-- Everything `serve` can do when it answers a next state. -/
theorem serve_eq_next {i : Instr} {r : Response} {s t : State} (h : serve i r s = .next t) :
    i.WellFormed ∧ t = s.answer r := by
  unfold serve at h
  split at h
  case isTrue hw => exact ⟨hw, (Host.Outcome.next.inj h).symm⟩
  case isFalse => cases h

/-- An operand that no request word can carry is refused by name. -/
theorem serve_of_not_wellFormed {i : Instr} (h : ¬ i.WellFormed) (r : Response) (s : State) :
    serve i r s = .refused .notExpressible := if_neg h

/-- `rlen` holds the length of every sequence of the port (R55). -/
theorem lengthField_toNat {c : Bits} (h : c.length < 64) : (lengthField c).toNat = c.length := by
  simp [lengthField, Nat.mod_eq_of_lt h]

/-- `rdata` as a number, for every sequence of the port (R55). -/
theorem codewordData_toNat {c : Bits} (h : c.length ≤ 64) : (codewordData c).toNat = bitsToNat c := by
  rw [codewordData, BitVec.toNat_ofNat, Nat.mod_eq_of_lt]
  exact lt_of_lt_of_le (bitsToNat_lt c) (Nat.pow_le_pow_right (by omega) h)

/-- Bit `i` of `rdata` is element `i` of the codeword, and 0 above it (R55). -/
theorem codewordData_getLsbD (c : Bits) {i : Nat} (h : i < 64) : (codewordData c).getLsbD i = c.getD i false := by
  rw [codewordData, BitVec.getLsbD_ofNat, testBit_bitsToNat]
  simp [h]

/-- Bit `k` of a position mask is 1 iff `2^k` is an element (R55). -/
theorem positionMask_getLsbD (ps : List Nat) {k : Nat} (h : k < 64) :
    (positionMask ps).getLsbD k = decide (2 ^ k ∈ ps) := by
  rw [positionMask, codewordData_getLsbD _ h]
  simp [List.getD_eq_getElem?_getD, Config.payW, h]

/-- `rdata` holds position `j` of the codeword at bit `j-1` (R55, R27). -/
theorem codewordData_at {c : Bits} (hc : c.length ≤ 64) {j : Nat} (h1 : 1 ≤ j) (hj : j ≤ c.length) :
    (codewordData c).getLsbD (j - 1) = bitAt c j := by
  rw [codewordData_getLsbD _ (by omega)]
  obtain ⟨k, rfl⟩ : ∃ k, j = k + 1 := ⟨j - 1, by omega⟩
  rfl

/-- `rdata` is 0 above the codeword (R55). -/
theorem codewordData_above {c : Bits} {i : Nat} (h : c.length ≤ i) : (codewordData c).getLsbD i = false := by
  by_cases hi : i < 64
  · rw [codewordData_getLsbD _ hi, List.getD_eq_default _ _ h]
  · exact BitVec.getLsbD_of_ge _ _ (by omega)

/-- The mask of the first `n` powers of two (R63: `rdata` always equals `2^psec - 1`). -/
theorem positionMask_toNat {n : Nat} (hn : n ≤ 64) : (positionMask ((List.range n).map (2 ^ ·))).toNat = 2 ^ n - 1 := by
  refine Nat.eq_of_testBit_eq fun i => ?_
  rw [BitVec.testBit_toNat, Nat.testBit_two_pow_sub_one]
  by_cases hi : i < 64
  · rw [positionMask_getLsbD _ hi]
    congr 1
    simp only [List.mem_map, List.mem_range, eq_iff_iff]
    constructor
    · rintro ⟨k, hk, he⟩
      rwa [← Nat.pow_right_injective (le_refl 2) he]
    · exact fun h => ⟨i, h, rfl⟩
  · rw [BitVec.getLsbD_of_ge _ _ (by omega)]
    simp; omega

/-- `pos` reads back as the position (R53). -/
theorem positionField_toInt {x : Int} (h1 : -128 ≤ x) (h2 : x < 128) : (positionField x).toInt = x := by
  rw [positionField, BitVec.toInt_ofInt, Int.bmod_eq_of_le] <;> simp <;> omega

end Sys2Proof.Machine
end

