-- ==== Sys2Proof/Laws/PerInstr.lean ====
section
/-! SUPPORT. Statements for every operation, one lemma per constructor: the OP field of an operation's word. -/

/-- The word of a well-formed operation carries the operation's OP value (R46). -/
def Sys2Proof.Laws.OpcodeField.Statement (i : Sys2Proof.Instr) : Prop :=
  i.WellFormed → Sys2Proof.opField (Sys2Proof.encode i) = i.opcode

namespace Sys2Proof.Laws.OpcodeField

theorem pcount (m : Nat) : Statement (.pcount m) := fun h =>
  opField_packRequest (by decide) (by decide) (fitsLen_iff.mp h) (by simp [Instr.opcode])

theorem ppos (p n : Nat) : Statement (.ppos p n) := fun h => by
  simp only [Instr.WellFormed, Instr.wellFormed, Bool.and_eq_true] at h
  exact opField_packRequest (by decide) (fitsLen_iff.mp h.2) (fitsLen_iff.mp h.1) (by simp [Instr.opcode])

/-- The payload of a sequence that fits the length field fits the payload field. -/
theorem payload_fits {b : Bits} (h : fitsLen b.length = true) : bitsToNat b < 2 ^ 64 :=
  lt_of_lt_of_le (bitsToNat_lt b) (Nat.pow_le_pow_right (by decide) (Nat.le_of_lt (fitsLen_iff.mp h)))

theorem enc (d : Bits) : Statement (.enc d) := fun h =>
  opField_packRequest (payload_fits h) (by decide) (fitsLen_iff.mp h) (by simp [Instr.opcode])

theorem analyze (c : Bits) : Statement (.analyze c) := fun h =>
  opField_packRequest (payload_fits h) (by decide) (fitsLen_iff.mp h) (by simp [Instr.opcode])

theorem correct (c : Bits) : Statement (.correct c) := fun h =>
  opField_packRequest (payload_fits h) (by decide) (fitsLen_iff.mp h) (by simp [Instr.opcode])

end Sys2Proof.Laws.OpcodeField
end

