-- ==== Sys2Proof/Laws/State.lean ====
section
/-! SUPPORT. One lemma per field per update of State. -/

namespace Sys2Proof.Machine

@[simp] theorem State.answer_requests (s : State) (r : Response) : (s.answer r).requests = s.requests := rfl

@[simp] theorem State.answer_responses (s : State) (r : Response) :
    (s.answer r).responses = s.responses ++ [r] := rfl

@[simp] theorem State.after_requests (rest : List Request) (s : State) (r : Response) :
    (State.after rest s r).requests = rest := rfl

@[simp] theorem State.after_responses (rest : List Request) (s : State) (r : Response) :
    (State.after rest s r).responses = s.responses ++ [r] := rfl

@[simp] theorem State.reset_requests : State.reset.requests = [] := rfl

@[simp] theorem State.reset_responses : State.reset.responses = [] := rfl

@[simp] theorem State.withFetchWord_requests (s : State) (nbits w : Nat) :
    (s.withFetchWord nbits w).requests = tableRequest nbits w :: s.requests := rfl

@[simp] theorem State.withFetchWord_responses (s : State) (nbits w : Nat) :
    (s.withFetchWord nbits w).responses = s.responses := rfl

/-- Answering leaves the waiting requests alone and adds one response. -/
theorem State.answer_eq_after (s : State) (r : Response) : s.answer r = State.after s.requests s r := rfl

/-- A response is legal in the new state when it was in the old one or is the new one. -/
theorem State.ResponsesLegal.after {s : State} {r : Response} (h : s.ResponsesLegal) (hr : r.Legal)
    (rest : List Request) : (State.after rest s r).ResponsesLegal := by
  intro x hx
  rcases List.mem_append.mp hx with hx | hx
  · exact h x hx
  · rw [List.mem_singleton.mp hx]; exact hr

end Sys2Proof.Machine
end

