-- ==== Sys2Proof/Laws/Step.lean ====
section
/-! SUPPORT. What a step can do, once, and how a run is made of steps. -/

namespace Sys2Proof.Machine

/-- Every arm of the dispatch serves its operation with the response its rule gives. -/
theorem exec_eq_serve (i : Instr) (s : State) : exec i s = serve i (instrResponse i) s := by cases i <;> rfl

/-- What an operation does when it answers a next state: one response more, everything else as it was. -/
theorem exec_eq_next {i : Instr} {s t : State} (h : exec i s = .next t) :
    i.WellFormed ∧ t = State.after s.requests s (instrResponse i) := by
  rw [exec_eq_serve] at h
  exact serve_eq_next h

/-- What a step does when it answers a next state: a request was presented; either it decodes to an operation that is
then executed with the request consumed, or its OP is reserved and the response is ILLEGAL_REQUEST. -/
theorem step_eq_next {s t : State} (h : step s = .next t) :
    ∃ q rest, s.requests = q :: rest ∧
      ((∃ i, decode q = .ok i ∧ exec i { s with requests := rest } = .next t) ∨
        (5 ≤ opField q ∧ t = State.after rest s (raiseError .illegalRequest))) := by
  unfold step at h
  split at h
  case h_1 => cases h
  case h_2 q rest hq =>
    refine ⟨q, rest, hq, ?_⟩
    split at h
    case h_1 i hi => exact .inl ⟨i, hi, h⟩
    case h_2 e he =>
      have h5 : 5 ≤ opField q := by
        rcases decode_cases q with h | h | h | h | h | h
        all_goals first | exact h.1 | (rw [h.2] at he; cases he)
      exact .inr ⟨h5, (Host.Outcome.next.inj h).symm⟩

/-- A run of `k + 1` steps is the first step and a run of `k` (of any machine behind the host's interface). -/
theorem run_succ_of_next (M : Host.Core) {k : Nat} {s t : M.State} (h : M.step s = .next t) :
    Host.Core.run M (k + 1) s = Host.Core.run M k t := by simp only [Host.Core.run, h]

/-- The same of the block: a step that answers is the first of a run. -/
theorem run_succ_of_step {k : Nat} {s t : State} (h : step s = .next t) :
    Host.Core.run core (k + 1) s = Host.Core.run core k t := run_succ_of_next core h

/-- A run of no steps. -/
theorem run_zero (s : State) : Host.Core.run core 0 s = .next s := by simp only [Host.Core.run]

/-- What `decode` gives a request word can carry (R47). -/
theorem wellFormed_of_decode {q : Request} {i : Instr} (h : decode q = .ok i) : i.WellFormed := by
  rcases decode_cases q with ⟨_, h'⟩ | ⟨_, h'⟩ | ⟨_, h'⟩ | ⟨_, h'⟩ | ⟨_, h'⟩ | ⟨_, h'⟩ <;> rw [h'] at h <;>
    cases h <;> simp [Instr.WellFormed, Instr.wellFormed, fitsLen_iff, lenField_lt, auxField_lt]

end Sys2Proof.Machine
end

