-- ==== Sys2Proof/Tests/Slice0.lean ====
section
/-! SUPPORT. The model's own tests. Every expected value comes from the spec: request words and responses from
95_test_vectors.md, encodings written out from R41. Then one witness for each statement with hypotheses. -/

namespace Sys2Proof.Tests

open Sys2Proof Sys2Proof.Machine Sys2Proof.SpecTables

/-! ## WellFormed: an ill-formed operation for each check, and the largest well-formed one -/

theorem test_wf_pcount_64 : (Instr.pcount 64).wellFormed = false ∧ (Instr.pcount 63).wellFormed = true := by decide
theorem test_wf_ppos_first : (Instr.ppos 64 0).wellFormed = false ∧ (Instr.ppos 63 63).wellFormed = true := by decide
theorem test_wf_ppos_second : (Instr.ppos 0 64).wellFormed = false := by decide
theorem test_wf_enc_64 : (Instr.enc (List.replicate 64 true)).wellFormed = false ∧
    (Instr.enc (List.replicate 63 true)).wellFormed = true := by decide
theorem test_wf_analyze_64 : (Instr.analyze (List.replicate 64 true)).wellFormed = false ∧
    (Instr.analyze (List.replicate 63 true)).wellFormed = true := by decide
theorem test_wf_correct_64 : (Instr.correct (List.replicate 64 true)).wellFormed = false ∧
    (Instr.correct (List.replicate 63 true)).wellFormed = true := by decide

/-! ## Decode: words written out field by field from R41, in binary PAYLOAD ++ A ++ L ++ OP -/

/-- PCOUNT 8: L = 001000, OP = 0000; A and PAYLOAD all ones are ignored (95_test_vectors.md, PCOUNT). -/
theorem test_decode_pcount : decode 0xFFFFFFFFFFFFFFFFFC80 = .ok (.pcount 8) ∧
    decode (0#64 ++ 0#6 ++ 0b001000#6 ++ 0b0000#4) = .ok (.pcount 8) := by decide
/-- PPOS 3, 36: A = 100100, L = 000011, OP = 0001. -/
theorem test_decode_ppos : decode (0#64 ++ 0b100100#6 ++ 0b000011#6 ++ 0b0001#4) = .ok (.ppos 3 36) ∧
    encode (.ppos 3 36) = 0x00000000000000009031 := by decide
/-- ENC "101", payload bit 0 first: PAYLOAD = 101, L = 000011, OP = 0010. -/
theorem test_decode_enc : decode (0b101#64 ++ 0#6 ++ 0b000011#6 ++ 0b0010#4) = .ok (.enc [true, false, true]) ∧
    encode (.enc [true, false, true]) = 0x00000000000000050032 := by decide
/-- ANALYZE "10": PAYLOAD = 01, so position 1 is payload bit 0. -/
theorem test_decode_analyze : decode (0b01#64 ++ 0#6 ++ 0b000010#6 ++ 0b0011#4) = .ok (.analyze [true, false]) ∧
    encode (.analyze [true, false]) = 0x00000000000000010023 := by decide
/-- CORRECT "01", with payload bit 2 set and ignored. -/
theorem test_decode_correct : decode (0b110#64 ++ 0#6 ++ 0b000010#6 ++ 0b0100#4) = .ok (.correct [false, true]) ∧
    encode (.correct [false, true]) = 0x00000000000000020024 := by decide
/-- Reserved OP 5 and 15 (R49). -/
theorem test_decode_reserved : decode 0x00000000000000350085 = .error (.reservedOp 5) ∧
    decode 0x0000000000000035008F = .error (.reservedOp 15) := by decide
/-- The host's reading of an opcode-table word. -/
theorem test_table_word : decodeTableWord 8 0x04 = some (.correct []) ∧ decodeTableWord 80 0x3041 = some (.ppos 4 12) ∧
    decodeTableWord 8 0x0F = none := by decide

/-! ## One step each: 95_test_vectors.md -/

/-- The response one step gives to one request after reset. -/
def answerTo (q : Request) : Option Response :=
  match step { State.reset with requests := [q] } with
  | .next s => s.responses.head?
  | _ => none

theorem test_pcount_57 : answerTo 0x390 = some { Response.zero with psec := 6 } := by decide
theorem test_pcount_58 : answerTo 0x3A0 = some { Response.zero with psec := 7 } := by decide
theorem test_ppos_clamped : answerTo 0x1441 = some { Response.zero with psec := 3, rdata := 0x7 } := by decide +kernel
theorem test_ppos_largest : answerTo 0xFFF1 = some { Response.zero with psec := 6, rdata := 0x3F } := by decide +kernel
/-- W1, with the ignored bits set: `10101100` encodes to `0111010011000`. -/
theorem test_enc_8 : answerTo 0x0000000000FFFF35FC82 = some { Response.zero with rlen := 13, rdata := 0x32E } := by
  decide +kernel
theorem test_enc_bad_length : answerTo 0x00000000000001350092 = some { Response.zero with status := 1 } := by
  decide +kernel
/-- W2: the §8 codeword with bit 5 flipped. -/
theorem test_analyze_flip : answerTo 0x33E00D3 =
    some { Response.zero with ovp := 1, psec := 4, syn := 5, rdata := 0xF } := by decide +kernel
/-- L = 63, ones at 1, 2 and 60. -/
theorem test_analyze_63 : answerTo 0x080000000000000303F3 =
    some { Response.zero with ovp := 1, psec := 6, syn := 63, rdata := 0x3F } := by decide +kernel
/-- 39 bits, bit 33 flipped (R87). -/
theorem test_correct_39 : answerTo 0x0000003E7FFFFFF40274 =
    some { Response.zero with cls := 1, pos := 0x21, rlen := 39, rdata := 0x3F7FFFFFF4 } := by decide +kernel
/-- Bits 1, 2 and 12 flipped: S = 15 > 12 (R88). -/
theorem test_correct_past : answerTo 0x0B2D00D4 =
    some { Response.zero with cls := 3, pos := 0x0F, rlen := 13, rdata := 0xB2D } := by decide +kernel
theorem test_reserved : answerTo 0x00000000000000350085 = some { Response.zero with status := 2 } := by decide
theorem test_no_request : answerTo 0x390 ≠ none ∧
    (match step State.reset with | .refused .noRequestPresented => true | _ => false) = true := by decide
/-- The presented table word is the very next request. -/
theorem test_withFetchWord : (match step (State.reset.withFetchWord 8 4) with
    | .next s => decide (s = { requests := [], responses := [{ Response.zero with cls := 3, pos := 0xFF }] })
    | _ => false) = true := by decide

/-! ## The assembler (R57; words of P4) -/

theorem test_asm_ppos : (parseLine "PPOS 6, 38 ; a query".toList).map AsmLine.assemble = some 0x9861 := by decide
theorem test_asm_enc : (parseLine "ENC \"101\"".toList).map AsmLine.assemble = some 0x50032 := by decide
theorem test_asm_req80 : (parseLine ".req80 0x5".toList).map AsmLine.assemble = some 0x5 := by decide
theorem test_asm_too_long : parseLine "PCOUNT 64".toList = none ∧ parseLine "ENC \"12\"".toList = none := by decide

/-! ## The harness store -/

/-- Two slots, a write to the second, a flip of position 1 and a restore; the first slot and the original stay. -/
theorem test_store : (match storeFlipBit (storeWrite (emptyStore Nat 2) 1 [true] [true, false]).2 1 1 with
    | .done st => decide ((storeRead st 1).map (·.current) = some [false, false] ∧
        (storeRead st 1).map (·.original) = some [true, false] ∧ storeRead st 0 = none ∧
        storeFlipBit st 0 1 = .unstated ∧ storeFlipBit st 2 1 = .failed .invalidAddress ∧
        storeFlipBit st 1 3 = .failed .invalidPosition)
    | _ => false) = true := by decide

/-! ## Witnesses: a concrete input for the hypotheses of each statement -/

/-- §8's data vector and its codeword, W1. -/
def w1Data : Bits := [true, false, true, false, true, true, false, false]
/-- W1's codeword `0111010011000`. -/
def w1Code : Bits := [false, true, true, true, false, true, false, false, true, true, false, false, false]
/-- All-one data of 16 bits and its codeword, W5. -/
def w16Data : Bits := List.replicate 16 true
/-- W5's `0111111111111111111110`. -/
def w16Code : Bits := false :: (List.replicate 20 true ++ [false])
/-- All-one data of 32 bits, W5. -/
def w32Data : Bits := List.replicate 32 true
/-- W5's `001011111111111111111111111111101111110`. -/
def w32Code : Bits :=
  [false, false, true, false] ++ List.replicate 27 true ++ [false] ++ List.replicate 6 true ++ [false]
/-- A state with two requests waiting and one response given. -/
def busy : State := { requests := [0x33E00D3, 0x85], responses := [Response.zero] }

/-- The data vectors of every statement over `encodeData d = .ok c`, one per supported length, with `Supported`. -/
theorem witness_encoded :
    encodeData w1Data = .ok w1Code ∧ w1Data.length = 8 ∧ encodeData w16Data = .ok w16Code ∧ w16Data.length = 16 ∧
    encodeData w32Data = .ok w32Code ∧ w32Data.length = 32 ∧ Supported w1Data ∧ Supported w16Data ∧
    Supported w32Data := by
  simp only [Supported]; decide +kernel

/-- DecodeAfterEncode, OperationOnlyAddsItsResponse: well-formed operations, at the ends of the ranges. -/
theorem witness_wellFormed : (Instr.pcount 63).WellFormed ∧ (Instr.ppos 63 0).WellFormed ∧
    (Instr.enc w32Data).WellFormed ∧ (Instr.analyze []).WellFormed ∧
    (Instr.correct (List.replicate 63 true)).WellFormed := by decide

/-- UncarriableOperandIsRefused. -/
theorem witness_not_wellFormed : ¬ (Instr.pcount 64).WellFormed := by decide

/-- EncodeAfterDecodeKeepsReadBits, StepRunsDecodedOperation: a presented request that decodes. -/
theorem witness_decodes : busy.requests = 0x33E00D3 :: [0x85] ∧ decode 0x00D3 = .ok (.analyze (List.replicate 13 false)) ∧
    decodeTableWord 8 0x83 = some (.analyze (List.replicate 8 false)) := by decide

/-- RequestWordIsItsFields: the largest values of every field. -/
theorem witness_fields : 2 ^ 64 - 1 < 2 ^ 64 ∧ 63 < 64 ∧ 15 < 16 ∧
    packRequest (2 ^ 64 - 1) 63 63 15 = BitVec.allOnes 80 := by decide

/-- PayloadSequenceOfRequest: a word of each OP of 0..4, L at 0 and at 63. -/
theorem witness_ops : opField 0x3F0 = 0 ∧ lenField 0x3F0 = 63 ∧ opField 0xFC01 = 1 ∧ auxField 0xFC01 = 63 ∧
    opField 0x2 = 2 ∧ lenField 0x2 = 0 ∧ opField 0x7FFFFFFFFFFFFFFF03F3 = 3 ∧ opField 0x14 = 4 := by decide

/-- IgnoredBitsNeverMatter: different words that agree on every bit PCOUNT 8 reads, and for ENC of 8 bits. -/
theorem witness_sameReadBits : SameReadBits 0xFFFFFFFFFFFFFFFFFC80 0x80 ∧
    SameReadBits 0x0000000000FFFF35FC82 0x00000000000000350082 := by
  refine ⟨⟨by decide, by decide, by decide, fun h => absurd h (by decide)⟩,
    ⟨by decide, by decide, by decide, fun _ _ => ?_⟩⟩
  decide

/-- AssembledLineDecodesToItself. -/
theorem witness_line : parseLine "CORRECT \"01\"".toList = some (.operation (.correct [false, true])) := by decide

/-- ReservedOpIsIllegalRequest: both sides, at OP 4, 5 and 15. -/
theorem witness_reserved : opField 0x4 ≤ 4 ∧ 5 ≤ opField 0x5 ∧ 5 ≤ opField 0xF := by decide

/-- NoRequestNoResponse: both sides. -/
theorem witness_requests : State.reset.requests = [] ∧ busy.requests ≠ [] := by decide

/-- StepAnswersPresentedRequest, RunAnswersEveryRequestInOrder, and the port clauses of the result statements. -/
theorem witness_run : busy.requests = [0x33E00D3] ++ [0x85] ∧
    ({ State.reset with requests := [0x80] } : State).requests = 0x80 :: [] ∧ opField 0x80 = 0 := by decide

/-- StepKeepsResponsesLegal: reset's responses are legal, and a state with a request steps. -/
theorem witness_legal : ({ State.reset with requests := [0x80] } : State).ResponsesLegal ∧
    ∃ t, step { State.reset with requests := [0x80] } = .next t :=
  ⟨fun _ h => by simp at h, _, rfl⟩

/-- ParityCountLaws: each clause. -/
theorem witness_parityCount : (3 : Nat) ≤ 5 ∧ 1 ≤ parityCount 1 ∧ (58, 63, 7) ∈ parityCountRows ∧ 2 < parityCount 4 := by
  decide

/-- PcountResult and PposResult: the ends of the ranges. -/
theorem witness_layout_ranges : (0 : Nat) ≤ 63 ∧ (63 : Nat) ≤ 63 := by decide

/-- PositionSequenceShape: a sequence of each kind with two distinct elements. -/
theorem witness_positions : parityPositions 4 5 = [1, 2, 4] ∧ inferredPositions 10 12 = [1, 2, 4, 8] := by decide

/-- LayoutOfSecCodeword: m = 8, and the cap clauses at their boundary m = 1013. -/
theorem witness_secLayout : 4 = parityCount 8 ∧ 12 = 8 + 4 ∧ 4 ≤ 4 ∧ parityCount 1013 = 10 ∧ parityCount 1014 = 11 := by
  decide

/-- EncRefusesOtherLengths: lengths beside the supported ones. -/
theorem witness_lengths : ([] : Bits).length ∉ [8, 16, 32] ∧ (List.replicate 63 true).length ∉ [8, 16, 32] ∧
    (List.replicate 63 true).length ≤ 63 ∧ w1Data.length ∈ [8, 16, 32] := by decide

/-- EncodeIsLinear: a reordering of the parity positions, two vectors of one length, and an all-zero one. -/
theorem witness_linear : List.Perm [8, 4, 2, 1] (parityPositions (parityCount 8) (8 + parityCount 8)) ∧
    w1Data.length = (List.replicate 8 true).length ∧
    encodeData (List.replicate 8 true) = .ok [true, true, true, false, true, true, true, false, true, true, true, true, false] ∧
    encodeData (List.replicate 8 false) = .ok (List.replicate 13 false) ∧
    ∀ x ∈ List.replicate 8 false, x = false := by decide +kernel

/-- InferredPositionsOfLength: a row and a length of it, and a nonempty codeword. -/
theorem witness_inferred : (32, 62, [1, 2, 4, 8, 16, 32]) ∈ inferredRows ∧ w1Code ≠ [] := by decide

/-- SyndromeBitsAreFailedChecks, SyndromeIsXorOfOnes: a codeword the cap does not reach, at a length of 1, 13 and 63. -/
theorem witness_syndrome : w1Code ≠ [] ∧ w1Code.length - 1 < 2 ^ 4 ∧ [true] ≠ ([] : Bits) ∧
    [true].length - 1 < 2 ^ 0 ∧ 2 ≤ w1Code.length ∧ (List.replicate 63 true).length ≤ 63 ∧
    (analyzeWith 10 (List.replicate 63 true)).syndrome = 63 ∧ (5 : Nat).testBit 2 = true := by decide +kernel

/-- AnalyzeResult and CorrectResult: codewords of length 0, 1, 2 and 63. -/
theorem witness_ports : ([] : Bits).length ≤ 63 ∧ [true].length ≤ 63 ∧ [true, true].length ≤ 63 ∧
    (List.replicate 63 true).length ≤ 63 := by decide

/-- CorrectFourWayBranch: W1's codeword with 0, bit 13, bit 5, bits 1, 2, 12 and bits 1, 3 flipped, one for each
branch. -/
theorem witness_branches :
    analyzeWith 10 w1Code = { syndrome := 0, parityOdd := false, pSec := 4, positions := [1, 2, 4, 8] } ∧
    analyzeWith 10 (flipAt w1Code 13) = { syndrome := 0, parityOdd := true, pSec := 4, positions := [1, 2, 4, 8] } ∧
    analyzeWith 10 (flipAt w1Code 5) = { syndrome := 5, parityOdd := true, pSec := 4, positions := [1, 2, 4, 8] } ∧
    analyzeWith 10 (flipAt (flipAt (flipAt w1Code 1) 2) 12) =
      { syndrome := 15, parityOdd := true, pSec := 4, positions := [1, 2, 4, 8] } ∧
    analyzeWith 10 (flipAt (flipAt w1Code 1) 3) =
      { syndrome := 2, parityOdd := false, pSec := 4, positions := [1, 2, 4, 8] } := by decide +kernel

/-- VerificationAlwaysPasses: a syndrome inside the secPart. -/
theorem witness_verification : 0 < (analyzeWith 10 (flipAt w1Code 5)).syndrome ∧
    (analyzeWith 10 (flipAt w1Code 5)).syndrome ≤ (flipAt w1Code 5).length - 1 := by decide +kernel

/-- CapNeverShowsAtPort: the least cap, the longest codeword. -/
theorem witness_cap : 6 ≤ 6 ∧ (List.replicate 63 true).length ≤ 63 := by decide

/-- SingleErrorIsCorrected, DoubleErrorIsDetected, ThreeAndFourErrors, DataFlowRepairsOneFlip: positions of W1's
codeword in order, the last of them the overall bit. -/
theorem witness_flips : 1 ≤ 1 ∧ 1 < 2 ∧ 2 < 12 ∧ 12 < 13 ∧ 13 ≤ w1Code.length ∧
    (analyzeCodeword (flipAt (flipAt (flipAt w1Code 1) 2) 3)).syndrome ≤ w1Code.length - 1 ∧
    w1Code.length - 1 < (analyzeCodeword (flipAt (flipAt (flipAt w1Code 1) 2) 12)).syndrome ∧
    (analyzeCodeword (flipAt (flipAt (flipAt (flipAt w1Code 1) 2) 4) 7)).syndrome = 0 := by decide +kernel

/-- StoreWriteThenRead, StoreFlipThenRestore: addresses inside and outside, positions inside and outside, an empty slot,
and a filled slot whose current codeword is empty. -/
theorem witness_store : (0 : Int) ≤ 1 ∧ (1 : Int) < (emptyStore Nat 2).length ∧
    ¬ ((0 : Int) ≤ -1 ∧ (-1 : Int) < (emptyStore Nat 2).length) ∧ (emptyStore Nat 2)[(1 : Int).toNat]? = some none ∧
    (storeRead (storeWrite (emptyStore Nat 2) 1 [true] [true, false]).2 1) =
      some { originalData := [true], original := [true, false], current := [true, false], annotation := none } ∧
    (storeRead (storeWrite (emptyStore Nat 2) 1 [true] []).2 1) =
      some { originalData := [true], original := [], current := [], annotation := none } ∧
    (1 : Int) ≤ 2 ∧ (2 : Int) ≤ ([true, false] : Bits).length ∧
    ¬ ((1 : Int) ≤ 3 ∧ (3 : Int) ≤ ([true, false] : Bits).length) := by decide

end Sys2Proof.Tests
end

section
/-! PROOFS. The bit sequence a request word carries (R26, R27, R45). -/

namespace Sys2Proof

open Machine

/-- Position `j` of the payload sequence is `REQ[16+j-1]` (R27, R45). -/
theorem bitAt_payloadSeq (q : Request) {len j : Nat} (h1 : 1 ≤ j) (hj : j ≤ len) :
    bitAt (payloadSeq q len) j = q.getLsbD (16 + j - 1) := by
  obtain ⟨k, rfl⟩ := Nat.exists_eq_add_of_le' h1
  have hk : (payloadSeq q len)[k]? = some (q.getLsbD (16 + k)) := payloadSeq_getElem? q hj
  rw [bitAt_succ, List.getD_eq_getElem?_getD, hk]
  rfl

/-- Settles O4: the sequence is `payloadSeq`, and each OP of 0..4 leaves one case of `decode_cases`. -/
theorem payloadSequenceOfRequest : Obligations.PayloadSequenceOfRequest := by
  unfold Obligations.PayloadSequenceOfRequest
  intro q
  refine ⟨?pcount, ?ppos, payloadSeq q (lenField q), length_payloadSeq q _, fun i hi => payloadSeq_getElem? q hi,
    fun j h1 hj => bitAt_payloadSeq q h1 hj, ?enc, ?analyze, ?correct⟩
  all_goals
    intro hop
    simpa [hop] using decode_cases q

end Sys2Proof
end

section
/-! PROOFS. What a write to the harness store does and what a read then gives (R38, R39). -/

namespace Sys2Proof.Machine

variable {Note : Type} {st : CellStore Note} {a b : Int} {x : CodewordCell Note}

/-- A write inside the store fills the slot with a new cell that has no annotation (R38). -/
theorem storeWrite_of_inside (h : slotOf st a ≠ none) (d c : Bits) :
    storeWrite st a d c =
      (true, putCell st a { originalData := d, original := c, current := c, annotation := none }) := by
  obtain ⟨slot, hslot⟩ := Option.ne_none_iff_exists'.mp h
  simp [storeWrite, hslot]

/-- A write outside the store answers false and writes nothing (R38). -/
theorem storeWrite_of_outside (h : slotOf st a = none) (d c : Bits) : storeWrite st a d c = (false, st) := by
  simp [storeWrite, h]

/-- A read out of range is absent (R39). -/
theorem storeRead_of_outside (h : slotOf st a = none) : storeRead st a = none := by
  simp [storeRead, h]

/-- A read of an empty slot is absent (R39). -/
theorem storeRead_of_empty (h : st[a.toNat]? = some none) : storeRead st a = none := by
  unfold storeRead slotOf
  split
  · rfl
  · rw [h]; rfl

/-- A read gives back the cell its slot was filled with. -/
theorem storeRead_putCell_self (h : slotOf st a ≠ none) : storeRead (putCell st a x) a = some x :=
  storeRead_eq_some_iff.mpr (slotOf_putCell_self h)

/-- Filling a slot leaves every other read as it was. -/
theorem storeRead_putCell_of_ne (ha : 0 ≤ a) (h : b ≠ a) : storeRead (putCell st a x) b = storeRead st b :=
  congrArg Option.join (slotOf_putCell_of_ne ha h)

/-- Settles O53: a write is `putCell` on a slot that is there, and nothing elsewhere. -/
theorem storeWriteThenRead : Obligations.StoreWriteThenRead := by
  unfold Obligations.StoreWriteThenRead
  intro Note st a d c
  refine ⟨fun hin => ?inside, fun hout => ?outside, storeRead_of_empty⟩
  case inside =>
    have hslot : slotOf st a ≠ none := fun h => slotOf_eq_none_iff.mp h hin
    rw [storeWrite_of_inside hslot]
    exact ⟨rfl, length_putCell, ⟨_, storeRead_putCell_self hslot, rfl, rfl, rfl⟩,
      fun b hb => storeRead_putCell_of_ne hin.1 hb⟩
  case outside =>
    have hslot : slotOf st a = none := slotOf_eq_none_iff.mpr hout
    exact ⟨storeWrite_of_outside hslot d c, storeRead_of_outside hslot⟩

end Sys2Proof.Machine
end

section
/-! PROOFS. The request word as its four fields (R41). -/

namespace Sys2Proof

theorem payloadField_lt (q : Request) : payloadField q < 2 ^ 64 := (q.extractLsb' 16 64).isLt

/-- The word as a number is its four fields, each at its weight (R41). -/
theorem toNat_eq_fields (q : Request) :
    q.toNat = payloadField q * 2 ^ 16 + auxField q * 2 ^ 10 + lenField q * 2 ^ 4 + opField q := by
  rw [payloadField_eq, auxField_eq, lenField_eq, opField_eq]
  omega

/-- Settles O3: the fields are the word's quotients and remainders, and packing is read back field by field. -/
theorem requestWordIsItsFields : Obligations.RequestWordIsItsFields := by
  unfold Obligations.RequestWordIsItsFields
  constructor
  · exact fun q => ⟨toNat_eq_fields q, opField_lt q, lenField_lt q, auxField_lt q, payloadField_lt q⟩
  · exact fun payload a l op hp ha hl ho => ⟨payloadField_packRequest hp ha hl ho, auxField_packRequest hp ha hl ho,
      lenField_packRequest hp ha hl ho, opField_packRequest hp ha hl ho⟩

end Sys2Proof
end

section
/-! PROOFS. What the decoder answers for an OP (R46, R49), and the one response a step gives (R22). -/

namespace Sys2Proof

/-- A word with one of the five defined OP values decodes to an operation of that OP (R46). -/
theorem decode_of_op_le_four {q : Request} (h : opField q ≤ 4) :
    ∃ i, decode q = .ok i ∧ opField q = i.opcode := by
  rcases decode_cases q with ⟨ho, hd⟩ | ⟨ho, hd⟩ | ⟨ho, hd⟩ | ⟨ho, hd⟩ | ⟨ho, hd⟩ | ⟨ho, _⟩
  case inr.inr.inr.inr.inr => omega
  all_goals exact ⟨_, hd, ho⟩

/-- A word with a reserved OP is rejected (R49). -/
theorem decode_of_five_le_op {q : Request} (h : 5 ≤ opField q) : decode q = .error (.reservedOp (opField q)) := by
  rcases decode_cases q with ⟨ho, _⟩ | ⟨ho, _⟩ | ⟨ho, _⟩ | ⟨ho, _⟩ | ⟨ho, _⟩ | ⟨_, hd⟩
  case inr.inr.inr.inr.inr => exact hd
  all_goals omega

end Sys2Proof

namespace Sys2Proof.Machine

theorem portResponse_of_decode {q : Request} {i : Instr} (h : decode q = .ok i) :
    portResponse q = instrResponse i := by
  rw [portResponse, h]

theorem portResponse_of_reserved {q : Request} (h : 5 ≤ opField q) :
    portResponse q = raiseError .illegalRequest := by
  rw [portResponse, decode_of_five_le_op h]

/-- A presented request is answered with the response of the spec's function (R22). -/
theorem step_eq_after_portResponse {s : State} {q : Request} {rest : List Request} (hs : s.requests = q :: rest) :
    step s = .next (State.after rest s (portResponse q)) := by
  simp only [step, hs]
  rcases Nat.lt_or_ge 4 (opField q) with hop | hop
  · rw [decode_of_five_le_op hop, portResponse_of_reserved hop]
    rfl
  · obtain ⟨i, hi, _⟩ := decode_of_op_le_four hop
    simp only [hi, portResponse_of_decode hi, exec_eq_serve, serve_of_wellFormed (wellFormed_of_decode hi)]
    rfl

end Sys2Proof.Machine
end

section
/-! PROOFS. Which operations and which words are answered with an error status (R49, R72, R97, R98). -/

namespace Sys2Proof.Machine

/-- ENC completes or reports INVALID_LENGTH (R67, R72). -/
theorem encResponse_status (d : Bits) : (encResponse d).status = 0 ∨ (encResponse d).status = 1 := by
  unfold encResponse encodeData
  split_ifs
  · exact .inl rfl
  · exact .inr rfl

/-- An operation's status is OK, or it is ENC's INVALID_LENGTH (R49). -/
theorem instrResponse_status (i : Instr) :
    (instrResponse i).status = 0 ∨ (i.opcode = 2 ∧ (instrResponse i).status = 1) := by
  cases i with
  | enc d => exact (encResponse_status d).imp_right fun h => ⟨rfl, h⟩
  | pcount | ppos | analyze | correct => exact .inl rfl

/-- Settles O10: a reserved OP raises ILLEGAL_REQUEST, and any other word gets its operation's status. -/
theorem reservedOpIsIllegalRequest : Obligations.ReservedOpIsIllegalRequest := by
  unfold Obligations.ReservedOpIsIllegalRequest
  intro s q rest hs
  rw [step_eq_after_portResponse hs]
  constructor
  · intro hop
    rw [portResponse_of_reserved hop]
    rfl
  · intro hop
    obtain ⟨i, hi, hopcode⟩ := decode_of_op_le_four hop
    refine ⟨_, rfl, ?_⟩
    rw [portResponse_of_decode hi, hopcode]
    rcases instrResponse_status i with hok | ⟨henc, hinvalid⟩
    · simp [hok]
    · simp [henc, hinvalid]

end Sys2Proof.Machine
end

section
/-! PROOFS. The bits of a request word that its operation ignores (R48, R57). -/

namespace Sys2Proof

open Machine

/-- The payload sequence reads only the first `len` payload bits (R45). -/
theorem payloadSeq_congr {q q' : Request} {len : Nat}
    (h : ∀ i, i < len → q.getLsbD (16 + i) = q'.getLsbD (16 + i)) : payloadSeq q len = payloadSeq q' len :=
  List.map_congr_left fun i hi => h i (List.mem_range.mp hi)

/-- The decoder reads no ignored bit (R48). -/
theorem decode_congr {q q' : Request} (h : SameReadBits q q') : decode q = decode q' := by
  obtain ⟨hop, hlen, haux, hpay⟩ := h
  rcases Nat.lt_or_ge 4 (opField q) with h5 | h4
  · rw [decode_of_five_le_op h5, decode_of_five_le_op (hop ▸ h5), hop]
  · unfold decode
    rw [← hop, ← hlen h4]
    split
    case h_1 => rfl
    case h_2 h1 => rw [haux h1]
    case h_6 => rfl
    all_goals rw [payloadSeq_congr (hpay (by omega) h4)]

/-- The word of an operation on a sequence has the sequence as its payload and its length in `L` (R57). -/
theorem encode_of_sequence_operation {b : Bits} {i : Instr}
    (h : i ∈ [Instr.enc b, Instr.analyze b, Instr.correct b]) :
    encode i = packRequest (bitsToNat b) 0 b.length i.opcode := by
  simp only [List.mem_cons, List.not_mem_nil, or_false] at h
  rcases h with rfl | rfl | rfl <;> rfl

theorem Instr.opcode_lt (i : Instr) : i.opcode < 16 := by cases i <;> simp [Instr.opcode]

/-- Settles O7: equal decodes give equal responses, and every ignored field is packed as zero. -/
theorem ignoredBitsNeverMatter : Obligations.IgnoredBitsNeverMatter := by
  unfold Obligations.IgnoredBitsNeverMatter
  have hzeroPay : 0 < 2 ^ 64 := by decide
  have hzeroAux : 0 < 64 := by decide
  refine ⟨?sameStep, ?pcount, ?ppos, ?sequence⟩
  case sameStep =>
    intro q q' rest rs h
    have hresp : portResponse q = portResponse q' := by rw [portResponse, portResponse, decode_congr h]
    rw [step_eq_after_portResponse rfl, step_eq_after_portResponse rfl, hresp]
    rfl
  case pcount =>
    exact fun m hm =>
      ⟨auxField_packRequest hzeroPay hzeroAux hm (Instr.opcode_lt _),
        payloadField_packRequest hzeroPay hzeroAux hm (Instr.opcode_lt _)⟩
  case ppos =>
    exact fun p n hp hn => payloadField_packRequest hzeroPay hn hp (Instr.opcode_lt _)
  case sequence =>
    intro b hb i hi
    have hpay : bitsToNat b < 2 ^ 64 := Laws.OpcodeField.payload_fits (fitsLen_iff.mpr hb)
    rw [encode_of_sequence_operation hi]
    refine ⟨auxField_packRequest hpay hzeroAux hb i.opcode_lt, fun k hk _ => ?_⟩
    rw [getLsbD_packRequest hpay hzeroAux hb i.opcode_lt, testBit_bitsToNat, List.getD_eq_default _ _ hk]

end Sys2Proof
end

section
/-! PROOFS. An operation that completes, and the step that reaches it (R22, R46, R47). -/

namespace Sys2Proof.Machine

/-- An operation that a request word can carry completes with the response its rule gives (R47). -/
theorem exec_of_wellFormed {i : Instr} (h : i.WellFormed) (s : State) :
    exec i s = .next (State.after s.requests s (instrResponse i)) := by
  rw [exec_eq_serve, serve_of_wellFormed h, State.answer_eq_after]

/-- A presented request that decodes is consumed, and its operation executed (R22, R46). -/
theorem step_of_decode {s : State} {q : Request} {rest : List Request} {i : Instr} (hs : s.requests = q :: rest)
    (hd : decode q = .ok i) : step s = exec i { s with requests := rest } := by
  simp only [step, hs, hd]

end Sys2Proof.Machine
end

section
/-! PROOFS. The parity count: the least number that meets R60's bound, and PCOUNT's answer (R59). -/

namespace Sys2Proof.Machine

/-- The search of R60 has the fuel to end on a number that meets the bound, and every smaller number misses it. -/
theorem parityCount_spec (m : Nat) :
    m + parityCount m + 1 ≤ 2 ^ parityCount m ∧ ∀ k, k < parityCount m → 2 ^ k < m + k + 1 := by
  have hfuel : m + (0 + (m + 1)) + 1 ≤ 2 ^ (0 + (m + 1)) := by
    have : m < 2 ^ m := Nat.lt_two_pow_self
    rw [Nat.zero_add, Nat.pow_succ]
    omega
  obtain ⟨_, _, hbound, hleast⟩ := parityCountFrom_spec m (m + 1) 0 hfuel
  exact ⟨hbound, fun k hk => hleast k (Nat.zero_le k) hk⟩

/-- A number that meets the bound is at least the parity count. -/
theorem parityCount_le_of_bound {m p : Nat} (h : m + p + 1 ≤ 2 ^ p) : parityCount m ≤ p := by
  by_contra hlt
  have := (parityCount_spec m).2 p (Nat.lt_of_not_le hlt)
  omega

/-- At the port the parity count fits `psec` (D9). -/
theorem parityCount_le_seven {m : Nat} (h : m ≤ 63) : parityCount m ≤ 7 :=
  parityCount_le_of_bound (by omega)

/-- Settles O20: the search of R60 ends on the least number that meets the bound. -/
theorem parityCountIsSmallest : Obligations.ParityCountIsSmallest := by
  unfold Obligations.ParityCountIsSmallest
  exact parityCount_spec

/-- Settles O22: PCOUNT's one response carries the parity count, and the word reaches it through `decode`. -/
theorem pcountResult : Obligations.PcountResult := by
  unfold Obligations.PcountResult
  constructor
  · intro m s hm
    obtain ⟨hbound, hleast⟩ := parityCount_spec m
    have hwf : (Instr.pcount m).WellFormed := fitsLen_iff.mpr (Nat.lt_succ_of_le hm)
    refine ⟨parityCount m, parityCount_le_seven hm, rfl, hbound, hleast, ?_, ?_, ?_, ?_, exec_of_wellFormed hwf s⟩
    all_goals
      rintro rfl
      decide
  · intro s q rest hs hop
    obtain ⟨hpcount, _⟩ := payloadSequenceOfRequest q
    exact step_of_decode hs (hpcount hop)

end Sys2Proof.Machine
end

section
/-! PROOFS. The position sequence: the powers of two cut at `n` (R62), and PPOS's answer (R63). -/

namespace Sys2Proof.Machine

/-- In an ascending list, stopping before the first element above `n` drops the same elements as filtering. -/
theorem takeWhile_le_eq_filter_le {l : List Nat} (h : l.Pairwise (· ≤ ·)) (n : Nat) :
    l.takeWhile (fun q => decide (q ≤ n)) = l.filter (fun q => decide (q ≤ n)) := by
  induction h with
  | nil => rfl
  | @cons q l hq _ ih =>
    rw [List.takeWhile_cons, List.filter_cons, ih]
    by_cases hn : q ≤ n
    · simp [hn]
    · have habove : l.filter (fun q => decide (q ≤ n)) = [] :=
        List.filter_eq_nil_iff.mpr fun x hx => by
          have := hq x hx
          simp only [decide_eq_true_eq]
          omega
      simp [hn, habove]

/-- The powers of two increase with their exponents (R62). -/
theorem pairwise_le_powers (p : Nat) : ((List.range p).map (2 ^ ·)).Pairwise (· ≤ ·) :=
  List.pairwise_map.mpr (List.pairwise_le_range.imp fun h => Nat.pow_le_pow_right (by decide) h)

/-- A position sequence is the first `p` powers of two, cut before the first above `n` (R62). -/
theorem parityPositions_eq_takeWhile (p n : Nat) :
    parityPositions p n = ((List.range p).map (2 ^ ·)).takeWhile (fun q => decide (q ≤ n)) := by
  rw [parityPositions, powersUpTo_eq_takeWhile, List.range_eq_range']

/-- Settles O23: the walk stops early, which is filtering because the powers increase. -/
theorem parityPositionsStopEarly : Obligations.ParityPositionsStopEarly := by
  unfold Obligations.ParityPositionsStopEarly
  intro p n
  exact ⟨parityPositions_eq_takeWhile p n,
    (parityPositions_eq_takeWhile p n).trans (takeWhile_le_eq_filter_le (pairwise_le_powers p) n)⟩

/-- At the port at most six positions fit (D9). -/
theorem length_parityPositions_le_six (p : Nat) {n : Nat} (hn : n ≤ 63) : (parityPositions p n).length ≤ 6 :=
  length_powersUpTo_le_six p hn

/-- A position sequence is the powers of two below its length (R65). -/
theorem parityPositions_eq_map (p n : Nat) :
    parityPositions p n = (List.range (parityPositions p n).length).map (2 ^ ·) := powersUpTo_zero_eq_map n p

/-- No position is at most 0 (R62). -/
theorem parityPositions_zero (p : Nat) : parityPositions p 0 = [] := by
  cases p <;> rfl

/-- At the port `psec` counts PPOS's positions without truncation (R63, D9). -/
theorem pposResponse_psec_toNat (p : Nat) {n : Nat} (hn : n ≤ 63) :
    (pposResponse p n).psec.toNat = (parityPositions p n).length := by
  have hsix := length_parityPositions_le_six p hn
  simp only [pposResponse, BitVec.toNat_ofNat]
  omega

/-- At the port `rdata` is the mask of the first `psec` powers of two (R63). -/
theorem pposResponse_rdata_toNat (p : Nat) {n : Nat} (hn : n ≤ 63) :
    (pposResponse p n).rdata.toNat = 2 ^ (parityPositions p n).length - 1 := by
  have hsix := length_parityPositions_le_six p hn
  calc (positionMask (parityPositions p n)).toNat
      = (positionMask ((List.range (parityPositions p n).length).map (2 ^ ·))).toNat := by
        rw [← parityPositions_eq_map]
    _ = 2 ^ (parityPositions p n).length - 1 := positionMask_toNat (by omega)

/-- Settles O27: PPOS's one response carries the positions' number and mask, and the word reaches it through
`decode`. -/
theorem pposResult : Obligations.PposResult := by
  unfold Obligations.PposResult
  constructor
  · intro p n s hp hn
    have hwf : (Instr.ppos p n).WellFormed := by
      simp only [Instr.WellFormed, Instr.wellFormed, Bool.and_eq_true, fitsLen_iff]
      omega
    have hpsec := pposResponse_psec_toNat p hn
    refine ⟨pposResponse p n, exec_of_wellFormed hwf s, hpsec, hpsec ▸ length_parityPositions_le_six p hn,
      fun k hk => positionMask_getLsbD _ (Nat.lt_succ_of_le hk),
      by rw [hpsec, pposResponse_rdata_toNat p hn], ?pZero, ?nZero, ?clamped, ?largest, ?unclamped,
      rfl, rfl, rfl, rfl, rfl, rfl⟩
    case pZero =>
      rintro rfl
      rfl
    case nZero =>
      rintro rfl
      rw [pposResponse, parityPositions_zero]
      rfl
    all_goals
      rintro rfl rfl
      rfl
  · intro s q rest hs hop
    obtain ⟨_, hppos, _⟩ := payloadSequenceOfRequest q
    exact step_of_decode hs (hppos hop)

end Sys2Proof.Machine
end

section
/-! PROOFS. The supported data vectors, and the length of their codewords (R69, R72). -/

namespace Sys2Proof.Machine

/-- The supported lengths, one by one (R72). -/
theorem Supported.length_cases {d : Bits} (h : Supported d) : d.length = 8 ∨ d.length = 16 ∨ d.length = 32 := by
  simpa [Supported, Config.supportedDataLengths] using h

/-- Every supported data vector fits a request word (R47). -/
theorem Supported.wellFormed {d : Bits} (h : Supported d) : (Instr.enc d).WellFormed := by
  have := h.length_cases
  exact fitsLen_iff.mpr (by omega)

/-- `encode` answers the codeword of a supported data vector (R72). -/
theorem encodeData_of_supported {d : Bits} (h : Supported d) : encodeData d = .ok (codewordOf d) := if_pos h

/-- `encode` fails with InvalidLength for every other one (R72). -/
theorem encodeData_of_not_supported {d : Bits} (h : ¬ Supported d) : encodeData d = .error .invalidLength := if_neg h

/-- Settles O30: placing and writing keep the length `m + p_sec`, and step 4 appends one bit. -/
theorem codewordLength : Obligations.CodewordLength := by
  unfold Obligations.CodewordLength
  intro d c h
  obtain ⟨hsupported, rfl⟩ := encodeData_eq_ok h
  have hlen : (codewordOf d).length = d.length + parityCount d.length + 1 := length_codewordWith _ d
  refine ⟨hlen, ?_, ?_, ?_, ?bound⟩
  case bound => rcases hsupported.length_cases with hm | hm | hm <;> rw [hlen, hm] <;> decide
  all_goals
    intro hm
    rw [hlen, hm]
    decide

end Sys2Proof.Machine
end

section
/-! PROOFS. ENC's two answers, and the words answered with INVALID_LENGTH (R67, R72, R97). -/

namespace Sys2Proof.Machine

/-- ENC's answer for a supported data vector (R67). -/
theorem encResponse_of_supported {d : Bits} (h : Supported d) :
    encResponse d = { Response.zero with
      status := statusOk, rlen := lengthField (codewordOf d), rdata := codewordData (codewordOf d) } := by
  rw [encResponse, encodeData_of_supported h]

/-- ENC's answer for every other one (R72, R97). -/
theorem encResponse_of_not_supported {d : Bits} (h : ¬ Supported d) : encResponse d = raiseError .invalidLength := by
  rw [encResponse, encodeData_of_not_supported h]

/-- ENC reports status 1 exactly for the lengths it does not support (R97). -/
theorem encResponse_status_eq_one_iff (d : Bits) : (encResponse d).status = 1 ↔ ¬ Supported d := by
  by_cases h : Supported d
  · simp [encResponse_of_supported h, h, statusOk]
  · simp [encResponse_of_not_supported h, h, raiseError, errorStatus]

/-- A carriable data vector of an unsupported length completes with INVALID_LENGTH (R72, R97). -/
theorem exec_enc_of_not_supported {d : Bits} (hd : d.length ≤ 63) (h : ¬ Supported d) (s : State) :
    exec (.enc d) s = .next (State.after s.requests s (raiseError .invalidLength)) := by
  have hwf : (Instr.enc d).WellFormed := fitsLen_iff.mpr (Nat.lt_succ_of_le hd)
  rw [exec_of_wellFormed hwf, instrResponse, encResponse_of_not_supported h]

/-- OP 2 decodes to ENC on the word's sequence (R46, R47). -/
theorem decode_of_op_two {q : Request} (h : opField q = 2) : decode q = .ok (.enc (payloadSeq q (lenField q))) := by
  simpa [h] using decode_cases q

/-- A word of another OP is not answered with status 1 (R49, R97). -/
theorem portResponse_status_ne_one {q : Request} (h : opField q ≠ 2) : (portResponse q).status ≠ 1 := by
  rcases Nat.lt_or_ge 4 (opField q) with hreserved | hop
  · rw [portResponse_of_reserved hreserved]
    decide
  · obtain ⟨i, hi, hopcode⟩ := decode_of_op_le_four hop
    rw [portResponse_of_decode hi]
    rcases instrResponse_status i with hok | ⟨henc, _⟩
    · rw [hok]
      decide
    · exact absurd (hopcode.trans henc) h

/-- Settles O28: the length check decides ENC's answer, and status 1 is ENC's alone. -/
theorem encRefusesOtherLengths : Obligations.EncRefusesOtherLengths := by
  unfold Obligations.EncRefusesOtherLengths
  refine ⟨fun d h => encodeData_of_not_supported h, fun d h => ⟨_, encodeData_of_supported h⟩,
    fun d s hd h => exec_enc_of_not_supported hd h s, fun q => ?_⟩
  by_cases hop : opField q = 2
  · have hstatus : (portResponse q).status = 1 ↔ lenField q ∉ [8, 16, 32] := by
      rw [portResponse_of_decode (decode_of_op_two hop), instrResponse, encResponse_status_eq_one_iff, Supported,
        length_payloadSeq, Config.supportedDataLengths]
    simpa only [hop, true_and] using hstatus
  · exact iff_of_false (portResponse_status_ne_one hop) fun h => hop h.1

end Sys2Proof.Machine
end

section
/-! PROOFS. The codeword of all-zero data, and ENC's answer (R67). -/

namespace Sys2Proof.Machine

/-- No position of an all-zero sequence holds a 1. -/
theorem bitAt_replicate_false (n j : Nat) : bitAt (List.replicate n false) j = false := by
  cases j with
  | zero => rfl
  | succ k => rw [bitAt_succ, List.getD_eq_getElem?_getD, List.getElem?_getD_replicate_default_eq]

/-- Step 2 of zeros into zeros gives zeros (R68). -/
theorem placeData_zeros (ps js : List Nat) (m : Nat) :
    placeData ps (fun _ => false) js (List.replicate m false) = List.replicate js.length false := by
  induction js generalizing m with
  | nil => rfl
  | cons j js ih =>
    have hhead : (List.replicate m false).headD false = false := by cases m <;> rfl
    rw [placeData, List.tail_replicate, hhead, ih, ih, ite_self]
    rfl

/-- Step 3 writes 0 into an all-zero sequence (R70). -/
theorem writeParity_zeros (n q : Nat) : writeParity (List.replicate n false) q = List.replicate n false := by
  have hcount : coverCount (List.replicate n false) q = 0 := by
    simp [coverCount, bitAt_replicate_false]
  rw [writeParity, hcount, odd_zero]
  cases q with
  | zero => rfl
  | succ k => rw [setAt_succ, List.set_replicate_self]

/-- Step 3 at any positions keeps an all-zero sequence (R70). -/
theorem foldl_writeParity_zeros (ps : List Nat) (n : Nat) :
    ps.foldl writeParity (List.replicate n false) = List.replicate n false := by
  induction ps with
  | nil => rfl
  | cons q ps ih => rw [List.foldl_cons, writeParity_zeros, ih]

/-- All-zero data of any length has the all-zero codeword (R67). -/
theorem codewordOf_zeros (m : Nat) :
    codewordOf (List.replicate m false) = List.replicate (m + parityCount m + 1) false := by
  have hsec : secCodeword (fun _ => false) (List.replicate m false) = List.replicate (m + parityCount m) false := by
    simp only [secCodeword, placeData_zeros, foldl_writeParity_zeros, length_positionsUpTo, List.length_replicate]
  have hones : ones (List.replicate (m + parityCount m) false) = 0 := by simp [ones, List.count_replicate]
  rw [codewordOf, codewordWith, hsec, appendOverall, hones, odd_zero, ← List.replicate_succ']

/-- Settles O29: ENC's response carries the codeword, whose length fits `rlen` and `rdata` by O30. -/
theorem encResult : Obligations.EncResult := by
  unfold Obligations.EncResult
  refine ⟨?supported, fun d s hd h => exec_enc_of_not_supported hd h s, ?zeros, ?examples,
    fun s q rest hs hop => step_of_decode hs (decode_of_op_two hop)⟩
  case supported =>
    intro d s h
    have hok := encodeData_of_supported h
    obtain ⟨_, _, _, _, hmax⟩ := codewordLength d _ hok
    have hlen : (codewordOf d).length < 64 := lt_of_le_of_lt hmax (by decide)
    refine ⟨codewordOf d, instrResponse (.enc d), hok, exec_of_wellFormed h.wellFormed s, ?_⟩
    rw [instrResponse, encResponse_of_supported h]
    exact ⟨lengthField_toNat hlen, fun j h1 hj => codewordData_at hlen.le h1 hj, fun i hi => codewordData_above hi,
      rfl, rfl, rfl, rfl, rfl, rfl⟩
  case zeros =>
    intro m hm
    have h : Supported (List.replicate m false) := by rwa [Supported, List.length_replicate]
    rw [encodeData_of_supported h, codewordOf_zeros]
  case examples =>
    intro s
    have hones : encResponse (List.replicate 8 true) =
        { Response.zero with rlen := 13, rdata := 0b0111101110111 } := by decide
    have hexample : encResponse [true, false, true, false, true, true, false, false] =
        { Response.zero with rlen := 13, rdata := 0x32E } := by decide
    constructor
    · rw [exec_of_wellFormed (by decide), instrResponse, hones]
    · rw [exec_of_wellFormed (by decide), instrResponse, hexample]

end Sys2Proof.Machine
end

section
/-! PROOFS. What `analyze` finds: its parity, the bounds of its results at the port, and ANALYZE's answer (R76, R77,
R81). -/

namespace Sys2Proof.Machine

/-- Settles O36: the empty input is `analyze`'s first branch, before the cap is read. -/
theorem analyzeOfEmpty : Obligations.AnalyzeOfEmpty := by
  unfold Obligations.AnalyzeOfEmpty
  exact fun cap => rfl

/-- The parity of the number of 1-bits is the exclusive or of the bits (R81). -/
theorem overallParityOdd_eq_foldl_xor (c : Bits) : overallParityOdd c = c.foldl xor false := by
  induction c using List.reverseRecOn with
  | nil => rfl
  | append_singleton c b ih =>
    rw [List.foldl_append, ← ih, overallParityOdd, ones_append, odd_add, ones_singleton, odd_toNat]
    rfl

/-- Settles O41: a nonempty input's parity is that of its count, the empty input's is even. -/
theorem overallParityCountsWholeInput : Obligations.OverallParityCountsWholeInput := by
  unfold Obligations.OverallParityCountsWholeInput
  intro cap c
  by_cases h : c = []
  · subst h
    rfl
  · rw [analyzeWith_of_ne_nil cap h, overallParityOdd_eq_foldl_xor]

/-- `p_sec` counts the inferred positions (R82). -/
theorem analyzeWith_pSec (cap : Nat) (c : Bits) : (analyzeWith cap c).pSec = (analyzeWith cap c).positions.length := by
  unfold analyzeWith
  split <;> rfl

/-- At the port at most six positions are inferred (D9). -/
theorem length_analyzeWith_positions_le_six (cap : Nat) {c : Bits} (hc : c.length ≤ 63) :
    (analyzeWith cap c).positions.length ≤ 6 := by
  by_cases h : c = []
  · subst h
    exact Nat.zero_le 6
  · rw [analyzeWith_of_ne_nil cap h]
    exact length_powersUpTo_le_six cap (by omega)

/-- The syndrome is a number of `p_sec` bits (R91). -/
theorem analyzeWith_syndrome_lt (cap : Nat) (c : Bits) :
    (analyzeWith cap c).syndrome < 2 ^ (analyzeWith cap c).positions.length := by
  by_cases h : c = []
  · subst h
    exact Nat.one_pos
  · rw [analyzeWith_of_ne_nil cap h]
    exact (syndromeOf_spec cap _ _).1

/-- At the port the syndrome fits `syn` (R91). -/
theorem analyzeWith_syndrome_lt_64 (cap : Nat) {c : Bits} (hc : c.length ≤ 63) : (analyzeWith cap c).syndrome < 64 :=
  calc (analyzeWith cap c).syndrome
      < 2 ^ (analyzeWith cap c).positions.length := analyzeWith_syndrome_lt cap c
    _ ≤ 2 ^ 6 := Nat.pow_le_pow_right (by decide) (length_analyzeWith_positions_le_six cap hc)

/-- `syn` holds the syndrome of every codeword of the port (R76). -/
theorem analyzeResponse_syn_toNat {c : Bits} (hc : c.length ≤ 63) :
    (analyzeResponse c).syn.toNat = (analyzeCodeword c).syndrome := by
  have hlt : (analyzeCodeword c).syndrome < 64 := analyzeWith_syndrome_lt_64 _ hc
  simp only [analyzeResponse, BitVec.toNat_ofNat]
  omega

/-- `psec` counts the inferred positions of every codeword of the port (R76). -/
theorem analyzeResponse_psec_toNat {c : Bits} (hc : c.length ≤ 63) :
    (analyzeResponse c).psec.toNat = (analyzeCodeword c).positions.length := by
  have hsix : (analyzeCodeword c).positions.length ≤ 6 := length_analyzeWith_positions_le_six _ hc
  have hpsec : (analyzeCodeword c).pSec = (analyzeCodeword c).positions.length := analyzeWith_pSec _ c
  simp only [analyzeResponse, BitVec.toNat_ofNat]
  omega

theorem ovpBit_eq_one_iff (p : Bool) : ovpBit p = 1 ↔ p = true := by
  cases p <;> decide

/-- OP 3 decodes to ANALYZE on the word's sequence (R46, R47). -/
theorem decode_of_op_three {q : Request} (h : opField q = 3) :
    decode q = .ok (.analyze (payloadSeq q (lenField q))) := by
  simpa [h] using decode_cases q

/-- Settles O40: ANALYZE's one response holds the results of `analyze`, each within its field's width. -/
theorem analyzeResult : Obligations.AnalyzeResult := by
  unfold Obligations.AnalyzeResult
  refine ⟨?results, ?examples, fun s q rest hs hop => step_of_decode hs (decode_of_op_three hop)⟩
  case results =>
    intro c s hc
    have hwf : (Instr.analyze c).WellFormed := fitsLen_iff.mpr (Nat.lt_succ_of_le hc)
    have hpsec := analyzeResponse_psec_toNat hc
    refine ⟨analyzeResponse c, exec_of_wellFormed hwf s, analyzeResponse_syn_toNat hc, ovpBit_eq_one_iff _, hpsec,
      hpsec ▸ length_analyzeWith_positions_le_six _ hc, fun k hk => positionMask_getLsbD _ (Nat.lt_succ_of_le hk),
      rfl, rfl, rfl, rfl, ?empty, ?one, ?two⟩
    case empty =>
      rintro rfl
      decide
    case one =>
      rintro b rfl
      cases b <;> decide
    case two =>
      rintro a b rfl
      revert a b
      decide
  case examples =>
    intro s
    have hlong : analyzeResponse ([true, true] ++ List.replicate 57 false ++ [true, false, false, false]) =
        { Response.zero with syn := 63, ovp := 1, psec := 6, rdata := 0x3F } := by decide +kernel
    have hflip : analyzeResponse [false, true, true, true, true, true, false, false, true, true, false, false, false] =
        { Response.zero with syn := 5, ovp := 1, psec := 4, rdata := 0xF } := by decide +kernel
    constructor
    · rw [exec_of_wellFormed (by decide), instrResponse, hlong]
    · rw [exec_of_wellFormed (by decide), instrResponse, hflip]

end Sys2Proof.Machine
end

section
/-! PROOFS. The branches of `correct`, one equation each (R84 to R89), and CORRECT's answer (R83). -/

namespace Sys2Proof.Machine

/-- Settles O42: the empty input is `correct`'s first branch, and -1 in two's complement is 0xFF. -/
theorem correctOfEmpty : Obligations.CorrectOfEmpty := by
  unfold Obligations.CorrectOfEmpty
  have hresp : correctResponse [] =
      { status := 0, cls := 3, ovp := 0, psec := 0, syn := 0, pos := 0xFF, rlen := 0, rdata := 0 } := by decide
  refine ⟨fun cap => rfl, fun s => ?_⟩
  rw [exec_of_wellFormed (by decide), instrResponse, hresp]

section Branches

variable {cap : Nat} {c : Bits}

/-- Both checks pass (R85). -/
theorem correctWith_of_clean (hc : c ≠ []) (hS : (analyzeWith cap c).syndrome = 0)
    (hP : (analyzeWith cap c).parityOdd = false) :
    correctWith cap c = { codeword := c, classification := .noError, position := 0 } := by
  simp [correctWith, hc, hS, hP]

/-- Only the overall parity fails (R86). -/
theorem correctWith_of_overall_error (hc : c ≠ []) (hS : (analyzeWith cap c).syndrome = 0)
    (hP : (analyzeWith cap c).parityOdd = true) :
    correctWith cap c =
      { codeword := flipAt c c.length, classification := .singleErrorCorrected, position := c.length } := by
  simp [correctWith, hc, hS, hP]

/-- Both checks fail at a syndrome inside the secPart (R87). -/
theorem correctWith_of_syndrome_inside (hc : c ≠ []) (hS : (analyzeWith cap c).syndrome ≠ 0)
    (hP : (analyzeWith cap c).parityOdd = true) (hin : (analyzeWith cap c).syndrome ≤ c.length - 1) :
    correctWith cap c = verifiedFlip cap c (analyzeWith cap c).syndrome := by
  simp [correctWith, hc, hS, hP, hin, Nat.pos_of_ne_zero hS]

/-- Both checks fail at a syndrome past the secPart (R88). -/
theorem correctWith_of_syndrome_past (hc : c ≠ []) (hP : (analyzeWith cap c).parityOdd = true)
    (hpast : c.length - 1 < (analyzeWith cap c).syndrome) :
    correctWith cap c =
      { codeword := c, classification := .uncorrectable, position := (analyzeWith cap c).syndrome } := by
  have hS : (analyzeWith cap c).syndrome ≠ 0 := Nat.ne_zero_of_lt hpast
  simp [correctWith, hc, hS, hP, Nat.not_le_of_lt hpast]

/-- Only the syndrome fails (R89). -/
theorem correctWith_of_double_error (hc : c ≠ []) (hS : (analyzeWith cap c).syndrome ≠ 0)
    (hP : (analyzeWith cap c).parityOdd = false) :
    correctWith cap c = { codeword := c, classification := .doubleErrorDetected, position := -1 } := by
  simp [correctWith, hc, hS, hP]

/-- The flip that clears both checks is kept (R87). -/
theorem verifiedFlip_of_clean {S : Nat}
    (h : (analyzeWith cap (flipAt c S)).syndrome = 0 ∧ (analyzeWith cap (flipAt c S)).parityOdd = false) :
    verifiedFlip cap c S = { codeword := flipAt c S, classification := .singleErrorCorrected, position := S } :=
  if_pos h

/-- The flip that does not is discarded (R87). -/
theorem verifiedFlip_of_not_clean {S : Nat}
    (h : ¬ ((analyzeWith cap (flipAt c S)).syndrome = 0 ∧ (analyzeWith cap (flipAt c S)).parityOdd = false)) :
    verifiedFlip cap c S = { codeword := c, classification := .uncorrectable, position := S } :=
  if_neg h

/-- Whatever the verification says, the syndrome is reported (R87). -/
theorem verifiedFlip_position (S : Nat) : (verifiedFlip cap c S).position = S := by
  unfold verifiedFlip
  dsimp only
  split <;> rfl

/-- The positions `correct` can report (R84 to R89). -/
theorem correctWith_position_cases (cap : Nat) (c : Bits) :
    (correctWith cap c).position = -1 ∨ (correctWith cap c).position = 0 ∨
      (correctWith cap c).position = c.length ∨ (correctWith cap c).position = (analyzeWith cap c).syndrome := by
  by_cases hc : c = []
  · subst hc
    exact .inl rfl
  by_cases hS : (analyzeWith cap c).syndrome = 0 <;> cases hP : (analyzeWith cap c).parityOdd
  · exact .inr (.inl (by rw [correctWith_of_clean hc hS hP]))
  · exact .inr (.inr (.inl (by rw [correctWith_of_overall_error hc hS hP])))
  · exact .inl (by rw [correctWith_of_double_error hc hS hP])
  · refine .inr (.inr (.inr ?_))
    rcases Nat.lt_or_ge (c.length - 1) (analyzeWith cap c).syndrome with hpast | hin
    · rw [correctWith_of_syndrome_past hc hP hpast]
    · rw [correctWith_of_syndrome_inside hc hS hP hin, verifiedFlip_position]

end Branches

/-- Settles O43: one branch lemma for each clause. -/
theorem correctFourWayBranch : Obligations.CorrectFourWayBranch := by
  unfold Obligations.CorrectFourWayBranch
  rintro cap c S P hc rfl rfl
  refine ⟨correctWith_of_clean hc, correctWith_of_overall_error hc, fun hS hP hin => ?inside,
    fun _ hP hpast => correctWith_of_syndrome_past hc hP hpast, correctWith_of_double_error hc⟩
  case inside =>
    rw [correctWith_of_syndrome_inside hc hS hP hin]
    exact ⟨verifiedFlip_of_clean, verifiedFlip_of_not_clean⟩

/-- At the port every reported position is in -1..63 (R51, R83). -/
theorem correctWith_position_range (cap : Nat) {c : Bits} (hc : c.length ≤ 63) :
    -1 ≤ (correctWith cap c).position ∧ (correctWith cap c).position ≤ 63 := by
  have hS := analyzeWith_syndrome_lt_64 cap hc
  rcases correctWith_position_cases cap c with h | h | h | h <;> rw [h] <;> omega

/-- `pos` reads back as the reported position of every codeword of the port (R53, R83). -/
theorem correctResponse_pos_toInt {c : Bits} (hc : c.length ≤ 63) :
    (correctResponse c).pos.toInt = (correctCodeword c).position := by
  obtain ⟨hlow, hhigh⟩ := correctWith_position_range Config.parityIterCap hc
  exact positionField_toInt (le_trans (by decide) hlow) (lt_of_le_of_lt hhigh (by decide))

/-- OP 4 decodes to CORRECT on the word's sequence (R46, R47). -/
theorem decode_of_op_four {q : Request} (h : opField q = 4) :
    decode q = .ok (.correct (payloadSeq q (lenField q))) := by
  simpa [h] using decode_cases q

/-- Settles O45: CORRECT's one response holds the results of `correct`, each within its field's width. -/
theorem correctResult : Obligations.CorrectResult := by
  unfold Obligations.CorrectResult
  refine ⟨fun c s hc => ?results, fun s q rest hs hop => step_of_decode hs (decode_of_op_four hop)⟩
  have hwf : (Instr.correct c).WellFormed := fitsLen_iff.mpr (Nat.lt_succ_of_le hc)
  have hlen : (correctCodeword c).codeword.length = c.length := length_correctWith _ c
  have hpos := correctResponse_pos_toInt hc
  obtain ⟨hlow, hhigh⟩ := correctWith_position_range Config.parityIterCap hc
  refine ⟨correctResponse c, exec_of_wellFormed hwf s, (lengthField_toNat (by omega)).trans hlen, hlen,
    fun j h1 hj => codewordData_at (by omega) h1 (by omega), fun i hi => codewordData_above (by omega), ?cls, hpos,
    hpos ▸ hlow, hpos ▸ hhigh, rfl, rfl, rfl, rfl, ?_, ?_, ?_, ?_, ?_, ?_, ?_⟩
  case cls =>
    simp only [correctResponse]
    cases (correctCodeword c).classification <;> rfl
  all_goals
    rintro rfl
    decide +kernel

end Sys2Proof.Machine
end

section
/-! PROOFS. What a flip does to the results of `analyze` (R91), and the checks of an encoded data vector (R74). -/

namespace Sys2Proof.Machine

/-- Where the cap reaches the secPart, every power of two in a position of it is inferred (R79, R91). -/
theorem two_pow_mem_inferredPositions {cap len j k : Nat} (hcap : len < 2 ^ cap) (hj : j ≤ len)
    (hk : j.testBit k = true) : 2 ^ k ∈ inferredPositions cap len := by
  have hle : 2 ^ k ≤ len := (Nat.ge_two_pow_of_testBit hk).trans hj
  exact mem_inferredPositions.mpr ⟨k, (Nat.pow_lt_pow_iff_right (by decide)).mp (hle.trans_lt hcap), rfl, hle⟩

/-- A flip inside the secPart adds its position to the syndrome (R91). -/
theorem analyzeWith_flipAt_syndrome {cap i : Nat} {c : Bits} (hcap : c.length - 1 < 2 ^ cap) (hi : 1 ≤ i)
    (hl : i ≤ c.length - 1) : (analyzeWith cap (flipAt c i)).syndrome = (analyzeWith cap c).syndrome ^^^ i := by
  have hc : c ≠ [] := List.ne_nil_of_length_pos (by omega)
  have hf : flipAt c i ≠ [] := List.ne_nil_of_length_pos (by rw [length_flipAt]; omega)
  rw [analyzeWith_of_ne_nil cap hc, analyzeWith_of_ne_nil cap hf, length_flipAt, secPart_flipAt hi hl]
  refine Nat.eq_of_testBit_eq fun k => ?_
  rw [Nat.testBit_xor, (syndromeOf_spec _ _ _).2, (syndromeOf_spec _ _ _).2,
    odd_checkCount_flipAt hi (by rwa [length_secPart]), and_two_pow_ne_zero]
  by_cases hk : i.testBit k = true
  · simp [hk, two_pow_mem_inferredPositions hcap hl hk]
  · simp [hk]

/-- A flip of the overall bit keeps the syndrome (R91). -/
theorem analyzeWith_flipAt_length_syndrome (cap : Nat) (c : Bits) :
    (analyzeWith cap (flipAt c c.length)).syndrome = (analyzeWith cap c).syndrome := by
  by_cases hc : c = []
  · subst hc
    rfl
  · have hf : flipAt c c.length ≠ [] :=
      List.ne_nil_of_length_pos (by rw [length_flipAt]; exact List.length_pos_iff.mpr hc)
    rw [analyzeWith_of_ne_nil cap hc, analyzeWith_of_ne_nil cap hf, length_flipAt, secPart_flipAt_length]

/-- The parity of `analyze` is the overall parity, of the empty input too (R77, R81). -/
theorem analyzeWith_parityOdd (cap : Nat) (c : Bits) : (analyzeWith cap c).parityOdd = overallParityOdd c := by
  rw [overallParityCountsWholeInput cap c, overallParityOdd_eq_foldl_xor]

/-- A flip inside the codeword turns the parity (R91). -/
theorem analyzeWith_flipAt_parityOdd (cap : Nat) {i : Nat} {c : Bits} (hi : 1 ≤ i) (hl : i ≤ c.length) :
    (analyzeWith cap (flipAt c i)).parityOdd = !(analyzeWith cap c).parityOdd := by
  rw [analyzeWith_parityOdd, analyzeWith_parityOdd, overallParityOdd_flipAt hi hl]

/-- Distinct powers of two have no bit in common (R65). -/
theorem two_pow_and_two_pow {i k : Nat} (h : i ≠ k) : 2 ^ i &&& 2 ^ k = 0 := by
  rw [Nat.and_two_pow, Nat.testBit_two_pow_of_ne h, Bool.toNat_false, Nat.zero_mul]

/-- Distinct parity positions do not cover one another (R65). -/
theorem parityPositions_and_eq_zero {p n q q' : Nat} (hq : q ∈ parityPositions p n) (hq' : q' ∈ parityPositions p n)
    (hne : q ≠ q') : q &&& q' = 0 := by
  obtain ⟨i, _, rfl, _⟩ := mem_parityPositions.mp hq
  obtain ⟨k, _, rfl, _⟩ := mem_parityPositions.mp hq'
  exact two_pow_and_two_pow fun h => hne (h ▸ rfl)

/-- After step 3 each written position holds the parity of the bits it covers in the result too (R70). -/
theorem bitAt_foldl_writeParity_eq_odd_coverCount {ps : List Nat} {c : Bits} {q : Nat}
    (hps : ∀ q ∈ ps, 1 ≤ q ∧ q ≤ c.length) (hd : ∀ q ∈ ps, ∀ q' ∈ ps, q ≠ q' → q &&& q' = 0) (hq : q ∈ ps) :
    bitAt (ps.foldl writeParity c) q = odd (coverCount (ps.foldl writeParity c) q) := by
  rw [bitAt_foldl_writeParity ps c hps hd, if_pos hq]
  refine congrArg odd (coverCount_congr (length_foldl_writeParity ps c).symm q fun j _ _ hne hcover => ?_)
  rw [bitAt_foldl_writeParity ps c hps hd, if_neg fun hj => hcover (hd j hj q hq hne)]

/-- Each parity bit of the SEC codeword is the parity of the bits it covers there (R70). -/
theorem bitAt_secCodeword (fill : Nat → Bit) {d : Bits} {q : Nat}
    (hq : q ∈ parityPositions (parityCount d.length) (d.length + parityCount d.length)) :
    bitAt (secCodeword fill d) q = odd (coverCount (secCodeword fill d) q) := by
  refine bitAt_foldl_writeParity_eq_odd_coverCount (fun a ha => ?_) (fun a ha b hb => parityPositions_and_eq_zero ha hb)
    hq
  obtain ⟨k, _, rfl, hle⟩ := mem_parityPositions.mp ha
  rw [length_placeData, length_positionsUpTo]
  exact ⟨Nat.one_le_two_pow, hle⟩

/-- Every check of the SEC codeword passes (R74). -/
theorem odd_checkCount_secCodeword (fill : Nat → Bit) (d : Bits) {k : Nat}
    (hk : 2 ^ k ≤ d.length + parityCount d.length) : odd (checkCount (secCodeword fill d) (2 ^ k)) = false := by
  have hlt : 2 ^ k < 2 ^ parityCount d.length := by
    have := (parityCount_spec d.length).1
    omega
  have hmem : 2 ^ k ∈ parityPositions (parityCount d.length) (d.length + parityCount d.length) :=
    mem_parityPositions.mpr ⟨k, (Nat.pow_lt_pow_iff_right (by decide)).mp hlt, rfl, hk⟩
  rw [checkCount_eq_coverCount_add Nat.one_le_two_pow (by rwa [length_secCodeword]), odd_add, odd_toNat,
    bitAt_secCodeword fill hmem, Bool.xor_self]

theorem codewordWith_ne_nil (fill : Nat → Bit) (d : Bits) : codewordWith fill d ≠ [] :=
  List.ne_nil_of_length_pos (by rw [length_codewordWith]; omega)

/-- The secPart of a codeword is the SEC codeword (R71, R78). -/
theorem secPart_codewordWith (fill : Nat → Bit) (d : Bits) : secPart (codewordWith fill d) = secCodeword fill d :=
  List.dropLast_concat

/-- A codeword of data of any length has syndrome 0 under every cap (R74). -/
theorem analyzeWith_codewordWith_syndrome (cap : Nat) (fill : Nat → Bit) (d : Bits) :
    (analyzeWith cap (codewordWith fill d)).syndrome = 0 := by
  rw [analyzeWith_of_ne_nil cap (codewordWith_ne_nil fill d), secPart_codewordWith, length_codewordWith]
  refine Nat.eq_of_testBit_eq fun k => ?_
  rw [(syndromeOf_spec _ _ _).2, Nat.zero_testBit, Bool.and_eq_false_imp]
  intro hk
  obtain ⟨j, _, hj, hle⟩ := mem_inferredPositions.mp (of_decide_eq_true hk)
  rw [hj]
  exact odd_checkCount_secCodeword fill d (by omega)

/-- A codeword of data of any length has even parity (R71, R74). -/
theorem analyzeWith_codewordWith_parityOdd (cap : Nat) (fill : Nat → Bit) (d : Bits) :
    (analyzeWith cap (codewordWith fill d)).parityOdd = false := by
  rw [analyzeWith_parityOdd, overallParityOdd, codewordWith, appendOverall, ones_append, ones_singleton, odd_add,
    odd_toNat, Bool.xor_self]

/-- Every single flip of a codeword is corrected and reported at its position, where the cap reaches (R93). -/
theorem correctWith_flipAt_codewordWith {cap i : Nat} (fill : Nat → Bit) {d : Bits}
    (hcap : (codewordWith fill d).length - 1 < 2 ^ cap) (hi : 1 ≤ i) (hl : i ≤ (codewordWith fill d).length) :
    correctWith cap (flipAt (codewordWith fill d) i) =
      { codeword := codewordWith fill d, classification := .singleErrorCorrected, position := i } := by
  have hS := analyzeWith_codewordWith_syndrome cap fill d
  have hP := analyzeWith_codewordWith_parityOdd cap fill d
  generalize codewordWith fill d = c at *
  have hne : flipAt c i ≠ [] := List.ne_nil_of_length_pos (by rw [length_flipAt]; omega)
  have hodd : (analyzeWith cap (flipAt c i)).parityOdd = true := by rw [analyzeWith_flipAt_parityOdd cap hi hl, hP]; rfl
  have hback : flipAt (flipAt c i) i = c := flipAt_flipAt hi hl
  rcases Nat.eq_or_lt_of_le hl with hlast | hinside
  · have hzero : (analyzeWith cap (flipAt c i)).syndrome = 0 := by
      rw [hlast, analyzeWith_flipAt_length_syndrome, hS]
    rw [correctWith_of_overall_error hne hzero hodd, length_flipAt, ← hlast, hback]
  · have hsyn : (analyzeWith cap (flipAt c i)).syndrome = i := by
      rw [analyzeWith_flipAt_syndrome hcap hi (by omega), hS, Nat.zero_xor]
    rw [correctWith_of_syndrome_inside hne (by omega) hodd (by rw [hsyn, length_flipAt]; omega), hsyn,
      verifiedFlip_of_clean (by rw [hback]; exact ⟨hS, hP⟩), hback]

end Sys2Proof.Machine
end

section
/-! PROOFS. The data flow at the port: the words of ENC and CORRECT, and the run over both (R5, R22). -/

namespace Sys2Proof

/-- The word of an operation on a sequence decodes to the operation (R45 to R47, R57). -/
theorem decode_encode_of_sequence_operation {b : Bits} {i : Instr} (hb : b.length < 64)
    (h : i ∈ [Instr.enc b, Instr.analyze b, Instr.correct b]) : decode (encode i) = .ok i := by
  have hpay : bitsToNat b < 2 ^ 64 := Laws.OpcodeField.payload_fits (fitsLen_iff.mpr hb)
  have haux : 0 < 64 := by decide
  have hop : opField (encode i) = i.opcode := by
    rw [encode_of_sequence_operation h, opField_packRequest hpay haux hb i.opcode_lt]
  have hseq : payloadSeq (encode i) (lenField (encode i)) = b := by
    rw [encode_of_sequence_operation h, lenField_packRequest hpay haux hb i.opcode_lt]
    refine payloadSeq_eq fun k _ => ?_
    rw [getLsbD_packRequest hpay haux hb i.opcode_lt, testBit_bitsToNat]
  simp only [List.mem_cons, List.not_mem_nil, or_false] at h
  rcases h with rfl | rfl | rfl <;> simp only [decode, hop, hseq, Instr.opcode]

end Sys2Proof

namespace Sys2Proof.Machine

/-- A run over two presented requests answers both, in order (R22). -/
theorem run_two_requests (q q' : Request) (s : State) :
    Host.Core.run core 2 { s with requests := [q, q'] } =
      .next { requests := [], responses := s.responses ++ [portResponse q, portResponse q'] } := by
  rw [run_succ_of_step (step_eq_after_portResponse rfl), run_succ_of_step (step_eq_after_portResponse rfl), run_zero]
  simp [State.after]

/-- Settles O52: both words decode to their operations, and `correct` gives ENC's codeword back by R93. -/
theorem dataFlowRepairsOneFlip : Obligations.DataFlowRepairsOneFlip := by
  unfold Obligations.DataFlowRepairsOneFlip
  intro d c i s h hi hl
  obtain ⟨_, _, _, _, hmax⟩ := codewordLength d c h
  obtain ⟨hsupported, rfl⟩ := encodeData_eq_ok h
  have hlen : (codewordOf d).length ≤ 39 := hmax
  have hd : d.length < 64 := fitsLen_iff.mp hsupported.wellFormed
  have hcl : (flipAt (codewordOf d) i).length < 64 := by rw [length_flipAt]; omega
  have henc : portResponse (encode (.enc d)) = encResponse d :=
    portResponse_of_decode (decode_encode_of_sequence_operation hd (by simp))
  have hcorrect : portResponse (encode (.correct (flipAt (codewordOf d) i))) =
      correctResponse (flipAt (codewordOf d) i) :=
    portResponse_of_decode (decode_encode_of_sequence_operation hcl (by simp))
  have hreach : (codewordOf d).length - 1 < 2 ^ Config.parityIterCap := by
    rw [Config.parityIterCap]
    omega
  have hrepair : correctCodeword (flipAt (codewordOf d) i) =
      { codeword := codewordOf d, classification := .singleErrorCorrected, position := i } :=
    correctWith_flipAt_codewordWith _ hreach hi hl
  refine ⟨encResponse d, correctResponse (flipAt (codewordOf d) i), ?run, ?results⟩
  case run => rw [run_two_requests, henc, hcorrect]
  case results =>
    rw [encResponse_of_supported hsupported, correctResponse, hrepair]
    have hpos : (positionField i).toInt = i := positionField_toInt (by omega) (by omega)
    exact ⟨rfl, rfl, rfl, rfl, rfl, hpos⟩

end Sys2Proof.Machine
end

section
/-! PROOFS. No request sees another: a response is the port's function of its own request (R22, R113, R114). -/

namespace Sys2Proof.Machine

/-- Settles O14: the one response is `portResponse q`, which is read off the request alone. -/
theorem responseDependsOnlyOnItsRequest : Obligations.ResponseDependsOnlyOnItsRequest := by
  unfold Obligations.ResponseDependsOnlyOnItsRequest
  intro q
  refine ⟨portResponse q, fun rest rs => ?_⟩
  exact step_eq_after_portResponse rfl

/-- Settles O15: each of the three runs is a run over two requests, which get `portResponse q` and
`portResponse q'` in the order of presentation. -/
theorem repeatedAndReorderedRequests : Obligations.RepeatedAndReorderedRequests := by
  unfold Obligations.RepeatedAndReorderedRequests
  intro q q'
  refine ⟨portResponse q, portResponse q', fun rs => ?_⟩
  have run_two (a b : Request) := run_two_requests a b { requests := [a, b], responses := rs }
  exact ⟨run_two q q, run_two q q', run_two q' q⟩

end Sys2Proof.Machine
end

section
/-! PROOFS. Decoder and encoder are inverse to one another on what an operation reads (R41, R45 to R48, R57). -/

namespace Sys2Proof

open Machine

theorem Instr.wellFormed_ppos_iff {p n : Nat} : (Instr.ppos p n).WellFormed ↔ p < 64 ∧ n < 64 := by
  simp only [Instr.WellFormed, Instr.wellFormed, Bool.and_eq_true, fitsLen_iff]

/-- The word of a well-formed operation carries its OP value (R46). -/
theorem opField_encode {i : Instr} (h : i.WellFormed) : opField (encode i) = i.opcode := by
  cases i with
  | pcount m => exact Laws.OpcodeField.pcount m h
  | ppos p n => exact Laws.OpcodeField.ppos p n h
  | enc d => exact Laws.OpcodeField.enc d h
  | analyze c => exact Laws.OpcodeField.analyze c h
  | correct c => exact Laws.OpcodeField.correct c h

theorem lenField_encode_pcount {m : Nat} (hm : m < 64) : lenField (encode (.pcount m)) = m :=
  lenField_packRequest (by decide) (by decide) hm (Instr.opcode_lt _)

theorem lenField_encode_ppos {p n : Nat} (hp : p < 64) (hn : n < 64) : lenField (encode (.ppos p n)) = p :=
  lenField_packRequest (by decide) hn hp (Instr.opcode_lt _)

theorem auxField_encode_ppos {p n : Nat} (hp : p < 64) (hn : n < 64) : auxField (encode (.ppos p n)) = n :=
  auxField_packRequest (by decide) hn hp (Instr.opcode_lt _)

/-- Settles O1: every field of the word reads back what was packed into it, and `decode` reads the fields. -/
theorem decodeAfterEncode : Obligations.DecodeAfterEncode := by
  unfold Obligations.DecodeAfterEncode
  intro i hwf
  have hop := opField_encode hwf
  cases i with
  | pcount m => simp only [decode, hop, Instr.opcode, lenField_encode_pcount (fitsLen_iff.mp hwf)]
  | ppos p n =>
    obtain ⟨hp, hn⟩ := Instr.wellFormed_ppos_iff.mp hwf
    simp only [decode, hop, Instr.opcode, lenField_encode_ppos hp hn, auxField_encode_ppos hp hn]
  | enc b | analyze b | correct b => exact decode_encode_of_sequence_operation (fitsLen_iff.mp hwf) (by simp)

/-- The word of an operation on the sequence a word carries agrees with that word on `L` and the payload bits below
it (R45, R57). -/
theorem sameReadBits_encode_of_sequence_operation {q : Request} {i : Instr} (hop : opField q = i.opcode)
    (hi : i ∈ [Instr.enc (payloadSeq q (lenField q)), Instr.analyze (payloadSeq q (lenField q)),
      Instr.correct (payloadSeq q (lenField q))]) : SameReadBits q (encode i) := by
  have hlen : (payloadSeq q (lenField q)).length < 64 := by rw [length_payloadSeq]; exact lenField_lt q
  have hpay := Laws.OpcodeField.payload_fits (fitsLen_iff.mpr hlen)
  have hne : opField q ≠ 1 := by
    simp only [List.mem_cons, List.not_mem_nil, or_false] at hi
    rcases hi with rfl | rfl | rfl <;> simp [hop, Instr.opcode]
  rw [encode_of_sequence_operation hi]
  refine ⟨?op, fun _ => ?lField, fun h => absurd h hne, fun _ _ k hk => ?payload⟩
  case op => rw [opField_packRequest hpay (by decide) hlen i.opcode_lt, hop]
  case lField => rw [lenField_packRequest hpay (by decide) hlen i.opcode_lt, length_payloadSeq]
  case payload =>
    rw [getLsbD_packRequest hpay (by decide) hlen i.opcode_lt, testBit_bitsToNat, List.getD_eq_getElem?_getD,
      payloadSeq_getElem? q hk, Option.getD_some]

/-- The word of the operation that a word decodes to agrees with it on every bit the operation reads (R48, R57). -/
theorem sameReadBits_encode_of_decode {q : Request} {i : Instr} (h : decode q = .ok i) : SameReadBits q (encode i) := by
  have hl := lenField_lt q
  have ha := auxField_lt q
  have hop' := opField_encode (wellFormed_of_decode h)
  rcases decode_cases q with ⟨hop, hd⟩ | ⟨hop, hd⟩ | ⟨hop, hd⟩ | ⟨hop, hd⟩ | ⟨hop, hd⟩ | ⟨_, hd⟩ <;>
    cases hd.symm.trans h
  case inl =>
    exact ⟨hop.trans hop'.symm, fun _ => (lenField_encode_pcount hl).symm, fun h1 => by omega, fun h2 => by omega⟩
  case inr.inl =>
    exact ⟨hop.trans hop'.symm, fun _ => (lenField_encode_ppos hl ha).symm, fun _ => (auxField_encode_ppos hl ha).symm,
      fun h2 => by omega⟩
  all_goals exact sameReadBits_encode_of_sequence_operation hop (by simp)

/-- Settles O2: what `decode` gives is well formed, and its word agrees on the read bits. -/
theorem encodeAfterDecodeKeepsReadBits : Obligations.EncodeAfterDecodeKeepsReadBits := by
  unfold Obligations.EncodeAfterDecodeKeepsReadBits
  exact fun q i h => ⟨wellFormed_of_decode h, sameReadBits_encode_of_decode h⟩

/-- A word is of a table row exactly when its OP is the row's match value (R46). -/
theorem and_opMask_beq (q : Request) {op : Nat} (h : op < 16) :
    (q &&& 0xF == BitVec.ofNat 80 op) = decide (opField q = op) := by
  rw [opField_eq, Bool.eq_iff_iff, beq_iff_eq, decide_eq_true_iff, ← BitVec.toNat_inj, BitVec.toNat_and,
    BitVec.toNat_ofNat, Nat.mod_eq_of_lt (show op < 2 ^ 80 by omega)]
  exact Eq.congr_left (Nat.and_two_pow_sub_one_eq_mod q.toNat 4)

/-- The rows a word is of, by its OP (R46). -/
theorem opTable_filter_selects (q : Request) :
    opTable.filter (·.selects q) = opTable.filter fun r => decide (opField q = r.matchBits.toNat) := by
  refine List.filter_congr fun r hr => ?_
  simp only [opTable, List.mem_cons, List.not_mem_nil, or_false] at hr
  rcases hr with rfl | rfl | rfl | rfl | rfl <;> exact and_opMask_beq q (by decide)

/-- Settles O5: the row of a word is the row of its OP, on which `decode` branches too. -/
theorem wordSelectsOneTableRow : Obligations.WordSelectsOneTableRow := by
  unfold Obligations.WordSelectsOneTableRow
  intro q
  rw [opTable_filter_selects]
  rcases decode_cases q with ⟨hop, hd⟩ | ⟨hop, hd⟩ | ⟨hop, hd⟩ | ⟨hop, hd⟩ | ⟨hop, hd⟩ | ⟨hop, hd⟩ <;>
    simp only [hd]
  case inr.inr.inr.inr.inr =>
    have hlt := opField_lt q
    refine ⟨List.filter_eq_nil_iff.mpr fun r hr => ?_, trivial, hop, by omega⟩
    have hrow : ∀ r ∈ opTable, r.matchBits.toNat < 5 := by decide
    have := hrow r hr
    simp only [decide_eq_true_eq]
    omega
  all_goals
    rw [hop]
    rfl

/-- Settles O6: each word is evaluated. -/
theorem exampleWordsDecode : Obligations.ExampleWordsDecode := by
  unfold Obligations.ExampleWordsDecode
  decide

end Sys2Proof
end

section
/-! PROOFS. The verification of R87 always passes, so `correct` has one outcome for each pair of checks (R85 to R92). -/

namespace Sys2Proof.Machine

variable {cap : Nat} {c : Bits}

/-- A flip at the syndrome, inside the secPart, clears every check that failed and leaves the others alone (R92). -/
theorem analyzeWith_flipAt_syndrome_eq_zero (hS : 0 < (analyzeWith cap c).syndrome)
    (hin : (analyzeWith cap c).syndrome ≤ c.length - 1) :
    (analyzeWith cap (flipAt c (analyzeWith cap c).syndrome)).syndrome = 0 := by
  have hc : c ≠ [] := List.ne_nil_of_length_pos (by omega)
  have hbit (k : Nat) : (analyzeWith cap c).syndrome.testBit k =
      (decide (2 ^ k ∈ inferredPositions cap (c.length - 1)) && odd (checkCount (secPart c) (2 ^ k))) := by
    rw [analyzeWith_of_ne_nil cap hc]
    exact (syndromeOf_spec _ _ _).2 k
  generalize (analyzeWith cap c).syndrome = S at *
  have hf : flipAt c S ≠ [] := List.ne_nil_of_length_pos (by rw [length_flipAt]; omega)
  rw [analyzeWith_of_ne_nil cap hf, length_flipAt, secPart_flipAt hS hin]
  refine Nat.eq_of_testBit_eq fun k => ?_
  rw [(syndromeOf_spec _ _ _).2, odd_checkCount_flipAt hS (by rwa [length_secPart]), and_two_pow_ne_zero, hbit,
    Nat.zero_testBit]
  by_cases hk : 2 ^ k ∈ inferredPositions cap (c.length - 1) <;> simp [hk]

/-- The flip of R87 is kept: its verification passes (R92). -/
theorem correctWith_of_syndrome_inside_verified (hS : (analyzeWith cap c).syndrome ≠ 0)
    (hP : (analyzeWith cap c).parityOdd = true) (hin : (analyzeWith cap c).syndrome ≤ c.length - 1) :
    correctWith cap c =
      { codeword := flipAt c (analyzeWith cap c).syndrome, classification := .singleErrorCorrected
        position := (analyzeWith cap c).syndrome } := by
  have hpos := Nat.pos_of_ne_zero hS
  have hc : c ≠ [] := List.ne_nil_of_length_pos (by omega)
  rw [correctWith_of_syndrome_inside hc hS hP hin]
  refine verifiedFlip_of_clean ⟨analyzeWith_flipAt_syndrome_eq_zero hpos hin, ?_⟩
  rw [analyzeWith_flipAt_parityOdd cap hpos (by omega), hP]
  rfl

/-- With even parity the syndrome alone decides the classification (R85, R89). -/
theorem correctWith_classification_of_even (hc : c ≠ []) (hP : (analyzeWith cap c).parityOdd = false) :
    (correctWith cap c).classification =
      if (analyzeWith cap c).syndrome = 0 then .noError else .doubleErrorDetected := by
  split
  case isTrue hS => rw [correctWith_of_clean hc hS hP]
  case isFalse hS => rw [correctWith_of_double_error hc hS hP]

/-- With odd parity the classification says whether the syndrome is inside the codeword (R86 to R88, R92). -/
theorem correctWith_classification_of_odd (hc : c ≠ []) (hP : (analyzeWith cap c).parityOdd = true) :
    (correctWith cap c).classification =
      if (analyzeWith cap c).syndrome ≤ c.length - 1 then .singleErrorCorrected else .uncorrectable := by
  split
  case isTrue hin =>
    by_cases hS : (analyzeWith cap c).syndrome = 0
    · rw [correctWith_of_overall_error hc hS hP]
    · rw [correctWith_of_syndrome_inside_verified hS hP hin]
  case isFalse hpast => rw [correctWith_of_syndrome_past hc hP (Nat.lt_of_not_le hpast)]

/-- Uncorrectable comes from the empty input and from a syndrome past the codeword only (R84, R88, R92). -/
theorem correctWith_uncorrectable_iff (cap : Nat) (c : Bits) :
    (correctWith cap c).classification = .uncorrectable ↔
      c = [] ∨ ((analyzeWith cap c).parityOdd = true ∧ c.length - 1 < (analyzeWith cap c).syndrome) := by
  by_cases hc : c = []
  · subst hc
    exact iff_of_true rfl (.inl rfl)
  cases hP : (analyzeWith cap c).parityOdd with
  | false =>
    rw [correctWith_classification_of_even hc hP]
    split <;> simp [hc]
  | true =>
    rw [correctWith_classification_of_odd hc hP]
    split <;> simp [hc] <;> omega

/-- Settles O44: the flip turns every failed check and the parity, and the rest is the branches of `correct`. -/
theorem verificationAlwaysPasses : Obligations.VerificationAlwaysPasses := by
  unfold Obligations.VerificationAlwaysPasses
  intro cap c
  refine ⟨fun _ hS hin => ⟨analyzeWith_flipAt_syndrome_eq_zero hS hin, ?_⟩, correctWith_uncorrectable_iff cap c⟩
  exact analyzeWith_flipAt_parityOdd cap hS (by omega)

end Sys2Proof.Machine
end

section
/-! PROOFS. Every response is legal: one lemma per operation and one for the errors (R51 to R56, R83 to R92). -/

namespace Sys2Proof.Machine

/-- An error response is legal: its status is 1 or 2 and nothing else is written (R52, R56). -/
theorem raiseError_legal (e : Error) : (raiseError e).Legal := by
  cases e <;> constructor <;> decide

/-- A response with status OK that reports no classification is legal when its data and syndrome are (R51, R52). -/
theorem Response.Legal.of_ok {r : Response} (hstatus : r.status = 0) (hcls : r.cls = 0) (hpos : r.pos = 0)
    (habove : r.rlen ≠ 0 → r.rdata.toNat < 2 ^ r.rlen.toNat)
    (hmask : r.rlen = 0 → r.rdata = 0 ∨ r.rdata.toNat = 2 ^ r.psec.toNat - 1)
    (hsyn : r.syn.toNat < 2 ^ r.psec.toNat) : r.Legal where
  status_ne := by rw [hstatus]; decide
  error_zero h := absurd hstatus h
  pos_range := by rw [hpos]; decide
  noError_pos _ := hpos
  single_pos h := absurd (hcls.symm.trans h) (by decide)
  double_pos h := absurd (hcls.symm.trans h) (by decide)
  uncorrectable_pos h := absurd (hcls.symm.trans h) (by decide)
  data_above := habove
  mask := hmask
  syn_bound := hsyn

theorem pcountResponse_legal (m : Nat) : (pcountResponse m).Legal :=
  .of_ok rfl rfl rfl (fun h => absurd rfl h) (fun _ => .inl rfl) (Nat.two_pow_pos _)

theorem pposResponse_legal (p : Nat) {n : Nat} (hn : n ≤ 63) : (pposResponse p n).Legal :=
  .of_ok rfl rfl rfl (fun h => absurd rfl h)
    (fun _ => .inr (by rw [pposResponse_rdata_toNat p hn, pposResponse_psec_toNat p hn])) (Nat.two_pow_pos _)

/-- The data of a codeword of the port ends at its length (R55). -/
theorem codewordData_lt {c : Bits} (hc : c.length < 64) : (codewordData c).toNat < 2 ^ (lengthField c).toNat := by
  rw [codewordData_toNat hc.le, lengthField_toNat hc]
  exact bitsToNat_lt c

theorem encResponse_legal (d : Bits) : (encResponse d).Legal := by
  by_cases h : Supported d
  · obtain ⟨hlen, _, _, _, hmax⟩ := codewordLength d _ (encodeData_of_supported h)
    have hlt : (codewordOf d).length < 64 := lt_of_le_of_lt hmax (by decide)
    rw [encResponse_of_supported h]
    refine .of_ok rfl rfl rfl (fun _ => codewordData_lt hlt) (fun h0 => ?empty) (Nat.two_pow_pos _)
    have hzero : (lengthField (codewordOf d)).toNat = 0 := congrArg BitVec.toNat h0
    rw [lengthField_toNat hlt] at hzero
    omega
  · rw [encResponse_of_not_supported h]
    exact raiseError_legal _

/-- `analyze` lists the powers of two below its number of positions (R65, R77, R79). -/
theorem analyzeWith_positions_eq_map (cap : Nat) (c : Bits) :
    (analyzeWith cap c).positions = (List.range (analyzeWith cap c).positions.length).map (2 ^ ·) := by
  by_cases hc : c = []
  · subst hc
    rfl
  · rw [analyzeWith_of_ne_nil cap hc]
    exact powersUpTo_zero_eq_map _ cap

/-- ANALYZE's mask is that of the first `psec` powers of two (R55, R76). -/
theorem analyzeResponse_rdata_toNat {c : Bits} (hc : c.length ≤ 63) :
    (analyzeResponse c).rdata.toNat = 2 ^ (analyzeCodeword c).positions.length - 1 := by
  have hsix : (analyzeCodeword c).positions.length ≤ 6 := length_analyzeWith_positions_le_six _ hc
  calc (positionMask (analyzeCodeword c).positions).toNat
      = (positionMask ((List.range (analyzeCodeword c).positions.length).map (2 ^ ·))).toNat :=
        congrArg (fun ps => (positionMask ps).toNat) (analyzeWith_positions_eq_map _ c)
    _ = 2 ^ (analyzeCodeword c).positions.length - 1 := positionMask_toNat (by omega)

theorem analyzeResponse_legal {c : Bits} (hc : c.length ≤ 63) : (analyzeResponse c).Legal := by
  have hpsec := analyzeResponse_psec_toNat hc
  refine .of_ok rfl rfl rfl (fun h => absurd rfl h) (fun _ => .inr ?mask) ?syndrome
  case mask => rw [analyzeResponse_rdata_toNat hc, hpsec]
  case syndrome =>
    rw [analyzeResponse_syn_toNat hc, hpsec]
    exact analyzeWith_syndrome_lt _ c

/-- The position each classification is reported at (R84 to R89). -/
theorem correctWith_position (cap : Nat) (c : Bits) :
    match (correctWith cap c).classification with
    | .noError => (correctWith cap c).position = 0
    | .singleErrorCorrected => 1 ≤ (correctWith cap c).position ∧ (correctWith cap c).position ≤ c.length
    | .doubleErrorDetected => (correctWith cap c).position = -1
    | .uncorrectable => (c = [] ∧ (correctWith cap c).position = -1) ∨
        (c ≠ [] ∧ c.length ≤ (correctWith cap c).position) := by
  by_cases hc : c = []
  · subst hc
    exact .inl ⟨rfl, rfl⟩
  have hlen := List.length_pos_iff.mpr hc
  by_cases hS : (analyzeWith cap c).syndrome = 0 <;> cases hP : (analyzeWith cap c).parityOdd
  · rw [correctWith_of_clean hc hS hP]
  · rw [correctWith_of_overall_error hc hS hP]
    dsimp only
    omega
  · rw [correctWith_of_double_error hc hS hP]
  · rcases Nat.lt_or_ge (c.length - 1) (analyzeWith cap c).syndrome with hpast | hin
    · rw [correctWith_of_syndrome_past hc hP hpast]
      exact .inr ⟨hc, by dsimp only; omega⟩
    · rw [correctWith_of_syndrome_inside_verified hS hP hin]
      dsimp only
      omega

theorem classCode_injective : Function.Injective classCode := by
  intro a b
  cases a <;> cases b <;> decide

theorem correctResponse_rlen_toNat {c : Bits} (hc : c.length ≤ 63) : (correctResponse c).rlen.toNat = c.length := by
  have hlen : (correctCodeword c).codeword.length = c.length := length_correctWith _ c
  exact (lengthField_toNat (by omega)).trans hlen

theorem correctResponse_legal {c : Bits} (hc : c.length ≤ 63) : (correctResponse c).Legal := by
  have hlen : (correctCodeword c).codeword.length = c.length := length_correctWith _ c
  have hrlen := correctResponse_rlen_toNat hc
  have hpos := correctResponse_pos_toInt hc
  have hdata : (correctResponse c).rdata.toNat < 2 ^ (correctResponse c).rlen.toNat := codewordData_lt (by omega)
  have hcase := correctWith_position Config.parityIterCap c
  have hclass {cl : Classification} (h : (correctResponse c).cls = classCode cl) :
      (correctWith Config.parityIterCap c).classification = cl := classCode_injective h
  constructor
  case status_ne => exact (by decide : statusOk ≠ 3)
  case error_zero => exact fun h => absurd rfl h
  case pos_range => exact hpos ▸ correctWith_position_range Config.parityIterCap hc
  case noError_pos =>
    intro h
    rw [hclass (cl := .noError) h] at hcase
    exact congrArg positionField hcase
  case single_pos =>
    intro h
    rw [hclass (cl := .singleErrorCorrected) h] at hcase
    rwa [hpos, hrlen]
  case double_pos =>
    intro h
    rw [hclass (cl := .doubleErrorDetected) h] at hcase
    rwa [hpos]
  case uncorrectable_pos =>
    intro h
    rw [hclass (cl := .uncorrectable) h] at hcase
    rw [hpos, hrlen]
    rcases hcase with ⟨hnil, hminus⟩ | ⟨hne, hpast⟩
    · exact .inl ⟨by rw [hnil]; rfl, hminus⟩
    · exact .inr ⟨List.length_pos_iff.mpr hne, hpast⟩
  case data_above => exact fun _ => hdata
  case mask =>
    intro h
    rw [h] at hdata
    exact .inr (Nat.lt_one_iff.mp hdata)
  case syn_bound => exact Nat.one_pos

/-- Every operation that a request word can carry has a legal response. -/
theorem instrResponse_legal {i : Instr} (h : i.WellFormed) : (instrResponse i).Legal := by
  cases i with
  | pcount m => exact pcountResponse_legal m
  | ppos p n => exact pposResponse_legal p (Nat.le_of_lt_succ (Instr.wellFormed_ppos_iff.mp h).2)
  | enc d => exact encResponse_legal d
  | analyze c => exact analyzeResponse_legal (Nat.le_of_lt_succ (fitsLen_iff.mp h))
  | correct c => exact correctResponse_legal (Nat.le_of_lt_succ (fitsLen_iff.mp h))

/-- Settles O16: a step adds one response, an operation's or an error's, and both kinds are legal. -/
theorem stepKeepsResponsesLegal : Obligations.StepKeepsResponsesLegal := by
  unfold Obligations.StepKeepsResponsesLegal
  intro s t hs hstep
  obtain ⟨q, rest, _, ⟨i, _, hexec⟩ | ⟨_, rfl⟩⟩ := step_eq_next hstep
  · obtain ⟨hwf, rfl⟩ := exec_eq_next hexec
    exact hs.after (instrResponse_legal hwf) rest
  · exact hs.after (raiseError_legal _) rest

/-- Settles O17: there is no response yet. -/
theorem resetResponsesLegal : Obligations.ResetResponsesLegal := by
  unfold Obligations.ResetResponsesLegal
  intro r hr
  simp at hr

end Sys2Proof.Machine
end

section
/-! PROOFS. The assembler accepts well-formed operations only (R57). -/

namespace Sys2Proof.Machine

theorem fitsLen_of_parseLen {cs : List Char} {n : Nat} (h : parseLen cs = some n) : fitsLen n = true :=
  (Option.filter_eq_some_iff.mp h).2

theorem fitsLen_of_checkedBits {b b' : Bits} (h : checkedBits b = some b') : fitsLen b'.length = true := by
  unfold checkedBits at h
  split at h
  case isTrue hfit => rwa [← Option.some.inj h]
  case isFalse => cases h

/-- Tokens that are read as an operation give a well-formed one: the parser checked its number or its length (R57). -/
theorem wellFormed_of_parseTokens {ts : List AsmToken} {i : Instr} (h : parseTokens ts = some (.operation i)) :
    i.WellFormed := by
  unfold parseTokens at h
  split at h
  case h_1 w m =>
    split_ifs at h with hpcount hreq
    · obtain ⟨n, hn, hi⟩ := Option.map_eq_some_iff.mp h
      cases hi
      exact fitsLen_of_parseLen hn
    · obtain ⟨n, _, hi⟩ := Option.map_eq_some_iff.mp h
      cases hi
  case h_2 w p n =>
    split_ifs at h
    split at h
    case h_1 p' n' hp hn =>
      cases h
      exact Bool.and_eq_true_iff.mpr ⟨fitsLen_of_parseLen hp, fitsLen_of_parseLen hn⟩
    case h_2 => cases h
  case h_3 w b =>
    split_ifs at h
    all_goals
      obtain ⟨b', hb, hi⟩ := Option.map_eq_some_iff.mp h
      cases hi
      exact fitsLen_of_checkedBits hb
  case h_4 => cases h

/-- Settles O8: what the parser accepts is well formed, and the word of such an operation decodes to it by O1. -/
theorem assembledLineDecodesToItself : Obligations.AssembledLineDecodesToItself := by
  unfold Obligations.AssembledLineDecodesToItself
  intro cs i h
  have hwf : i.WellFormed := by
    unfold parseLine at h
    split at h
    case h_1 => exact wellFormed_of_parseTokens h
    case h_2 => cases h
  exact ⟨hwf, decodeAfterEncode i hwf⟩

end Sys2Proof.Machine
end

section
/-! PROOFS. The step, the run and the dispatch over every operation (R22, R46, R111). -/

namespace Sys2Proof.Machine

/-- Settles O12: the step's one answer is the port's function of the request. -/
theorem stepAnswersPresentedRequest : Obligations.StepAnswersPresentedRequest := by
  unfold Obligations.StepAnswersPresentedRequest
  exact fun s q rest hs => step_eq_after_portResponse hs

/-- Settles O13, by induction on the list of requests: the first is answered by a step, the others by the run after it. -/
theorem runAnswersEveryRequestInOrder : Obligations.RunAnswersEveryRequestInOrder := by
  unfold Obligations.RunAnswersEveryRequestInOrder
  intro qs rest s hs
  induction qs generalizing s with
  | nil =>
    subst hs
    simp [run_zero]
  | cons q qs ih =>
    rw [List.length_cons, run_succ_of_step (step_eq_after_portResponse hs), ih _ rfl]
    simp

/-- A table word that decodes is a request that decodes (R46). -/
theorem decode_tableRequest {nbits w : Nat} {i : Instr} (h : decodeTableWord nbits w = some i) :
    decode (tableRequest nbits w) = .ok i := by
  unfold decodeTableWord at h
  split at h
  case h_1 j hj => rwa [← Option.some.inj h]
  case h_2 => cases h

/-- Settles O9: a presented request that decodes is executed, and a presented table word is such a request. -/
theorem stepRunsDecodedOperation : Obligations.StepRunsDecodedOperation := by
  unfold Obligations.StepRunsDecodedOperation
  exact ⟨fun s q rest i hs hd => step_of_decode hs hd,
    fun s nbits w i h => step_of_decode (s.withFetchWord_requests nbits w) (decode_tableRequest h)⟩

/-- Settles O11: the step asks first whether a request is presented. -/
theorem noRequestNoResponse : Obligations.NoRequestNoResponse := by
  unfold Obligations.NoRequestNoResponse
  refine fun s => ⟨fun hs => by simp only [step, hs], fun hs => ?_⟩
  obtain ⟨q, rest, hq⟩ := List.exists_cons_of_ne_nil hs
  exact ⟨_, step_eq_after_portResponse hq⟩

/-- Settles O18: a well-formed operation is served with its rule's response. -/
theorem operationOnlyAddsItsResponse : Obligations.OperationOnlyAddsItsResponse := by
  unfold Obligations.OperationOnlyAddsItsResponse
  exact fun i h => ⟨instrResponse i, fun s => exec_of_wellFormed h s⟩

/-- Settles O19: `serve` refuses what is not well formed, and every operation is served. -/
theorem uncarriableOperandIsRefused : Obligations.UncarriableOperandIsRefused := by
  unfold Obligations.UncarriableOperandIsRefused
  exact fun i s h => (exec_eq_serve i s).trans (serve_of_not_wellFormed h _ s)

end Sys2Proof.Machine
end

section
/-! PROOFS. The harness store: a flip and a restore fill one slot (R37, R40). -/

namespace Sys2Proof.Machine

variable {Note : Type} {st : CellStore Note} {a i : Int} {x : CodewordCell Note}

theorem storeFlipBit_of_outside (h : slotOf st a = none) : storeFlipBit st a i = .failed .invalidAddress := by
  simp [storeFlipBit, h]

theorem storeRestore_of_outside (h : slotOf st a = none) : storeRestore st a = .failed .invalidAddress := by
  simp [storeRestore, h]

/-- A filled slot has an address of the store. -/
theorem address_nonneg_of_filled (h : slotOf st a = some (some x)) : 0 ≤ a := by
  by_contra hneg
  rw [slotOf_eq_none_iff.mpr fun hin => hneg hin.1] at h
  cases h

/-- A restore of a filled slot brings the original back, clears the annotation, and keeps every other slot (R40). -/
theorem storeRestore_spec (h : slotOf st a = some (some x)) :
    ∃ st', storeRestore st a = .done st' ∧
      storeRead st' a = some { x with current := x.original, annotation := none } ∧
      ∀ b, b ≠ a → storeRead st' b = storeRead st b :=
  ⟨_, storeRestore_of_filled h, storeRead_putCell_self (by simp [h]),
    fun _ hb => storeRead_putCell_of_ne (address_nonneg_of_filled h) hb⟩

/-- Settles O54: both actions are `putCell` on a filled slot, and a flip keeps the original for the restore. -/
theorem storeFlipThenRestore : Obligations.StoreFlipThenRestore := by
  unfold Obligations.StoreFlipThenRestore
  intro Note st a i
  refine ⟨fun hout => ?outside, fun x hx hi => ?position, fun x hx h1 hl => ?flip,
    fun x hx => storeRestore_spec (storeRead_eq_some_iff.mp hx)⟩
  case outside =>
    have hslot := slotOf_eq_none_iff.mpr hout
    exact ⟨storeFlipBit_of_outside hslot, storeRestore_of_outside hslot⟩
  case position => rw [storeFlipBit_of_filled (storeRead_eq_some_iff.mp hx), if_neg hi]
  case flip =>
    have hslot := storeRead_eq_some_iff.mp hx
    have hthere : slotOf st a ≠ none := by simp [hslot]
    have hother (b : Int) (hb : b ≠ a) : storeRead (putCell st a { x with current := flipAt x.current i.toNat }) b =
        storeRead st b := storeRead_putCell_of_ne (address_nonneg_of_filled hslot) hb
    obtain ⟨st'', hrestore, hread, hrest⟩ := storeRestore_spec (slotOf_putCell_self hthere)
    refine ⟨_, ?_, storeRead_putCell_self hthere, hother, st'', hrestore, hread, fun b hb => ?_⟩
    · rw [storeFlipBit_of_filled hslot, if_pos ⟨h1, hl⟩]
    · rw [hrest b hb, hother b hb]

end Sys2Proof.Machine
end

section
/-! PROOFS. The laws of the parity count, and the shape of the position sequences (R61, R64 to R66, R79). -/

namespace Sys2Proof.Machine

open Sys2Proof.SpecTables

/-- The search ends within `m + 1` increments (R61). -/
theorem parityCount_le_succ (m : Nat) : parityCount m ≤ m + 1 := by
  have : m < 2 ^ m := Nat.lt_two_pow_self
  refine parityCount_le_of_bound ?_
  rw [Nat.pow_succ]
  omega

/-- Longer data has no fewer parity bits: what is enough for it is enough for the shorter (R61). -/
theorem parityCount_mono : Monotone parityCount := fun m m' h =>
  parityCount_le_of_bound (by have := (parityCount_spec m').1; omega)

/-- One parity bit fewer is too few (R61). -/
theorem two_pow_parityCount_pred_lt {m : Nat} (h : 1 ≤ parityCount m) :
    2 ^ (parityCount m - 1) < m + parityCount m := by
  have := (parityCount_spec m).2 (parityCount m - 1) (by omega)
  omega

/-- Settles O21: the count is monotone, so each row of the table holds between its two ends. -/
theorem parityCountLaws : Obligations.ParityCountLaws := by
  unfold Obligations.ParityCountLaws
  have hends : ∀ row ∈ parityCountRows, parityCount row.1 = row.2.2 ∧ parityCount row.2.1 = row.2.2 := by decide
  refine ⟨parityCount_le_succ, fun m m' h => parityCount_mono h, rfl, fun m h => two_pow_parityCount_pred_lt h,
    fun row hrow m hlow hhigh => ?table, by decide, by decide, by decide⟩
  obtain ⟨hfirst, hlast⟩ := hends row hrow
  exact le_antisymm (hlast ▸ parityCount_mono hhigh) (hfirst ▸ parityCount_mono hlow)

/-- A walk that can reach the last power up to `n` lists all of them (R62, R79). -/
theorem powersUpTo_eq_map_range {n p count : Nat} (hcount : p ≤ count) (hlow : 1 ≤ p → 2 ^ (p - 1) ≤ n)
    (hhigh : n < 2 ^ p) : powersUpTo n count 0 = (List.range p).map (2 ^ ·) := by
  have hlen : (powersUpTo n count 0).length = p := by
    refine le_antisymm (Nat.le_of_not_lt fun hlong => ?_) (Nat.le_of_not_lt fun hshort => ?_)
    · obtain ⟨j, _, _, hj, hle⟩ := mem_powersUpTo.mp (two_pow_mem_powersUpTo.mpr hlong)
      omega
    · have hmem : 2 ^ (p - 1) ∈ powersUpTo n count 0 :=
        mem_powersUpTo.mpr ⟨p - 1, by omega, by omega, rfl, hlow (by omega)⟩
      have := two_pow_mem_powersUpTo.mp hmem
      omega
  rw [powersUpTo_zero_eq_map, hlen]

/-- Settles O24: every such sequence is one walk from `2^0`, which is the powers of two below its length. -/
theorem positionSequenceShape : Obligations.PositionSequenceShape := by
  unfold Obligations.PositionSequenceShape
  intro ps hps
  have hprefix : ps = (List.range ps.length).map (2 ^ ·) := by
    rcases hps with ⟨p, n, rfl⟩ | ⟨cap, len, rfl⟩
    · exact parityPositions_eq_map p n
    · exact powersUpTo_zero_eq_map len cap
  have hpower (q : Nat) (hq : q ∈ ps) : ∃ k, q = 2 ^ k := by
    rw [hprefix] at hq
    obtain ⟨k, _, hk⟩ := List.mem_map.mp hq
    exact ⟨k, hk.symm⟩
  refine ⟨hpower, ?ascending, hprefix, fun q hq => ?own, fun q hq q' hq' hne => ?shared⟩
  case ascending =>
    rw [hprefix]
    exact List.pairwise_map.mpr (List.pairwise_lt_range.imp fun h => Nat.pow_lt_pow_right (by decide) h)
  case own =>
    obtain ⟨k, rfl⟩ := hpower q hq
    exact ⟨Nat.and_self _, (Nat.two_pow_pos k).ne'⟩
  case shared =>
    obtain ⟨k, rfl⟩ := hpower q hq
    obtain ⟨k', rfl⟩ := hpower q' hq'
    exact two_pow_and_two_pow fun h => hne (h ▸ rfl)

/-- The encoder's positions are all the powers of two below `2^p` (R64). -/
theorem parityPositions_parityCount (m : Nat) :
    parityPositions (parityCount m) (m + parityCount m) = (List.range (parityCount m)).map (2 ^ ·) :=
  powersUpTo_eq_map_range le_rfl (fun h => (two_pow_parityCount_pred_lt h).le)
    (by have := (parityCount_spec m).1; omega)

/-- Settles O25: the last power of the `p` is at most the codeword's length, because `p` is the least count. -/
theorem clampNeverTriggersFromEncoder : Obligations.ClampNeverTriggersFromEncoder := by
  unfold Obligations.ClampNeverTriggersFromEncoder
  intro m
  rw [parityPositions_parityCount]
  exact ⟨rfl, by rw [List.length_map, List.length_range]⟩

/-- The positions that are elements of a list of distinct positions are as many as its elements. -/
theorem length_filter_mem_positionsUpTo {n : Nat} {ps : List Nat} (hnodup : ps.Nodup)
    (hps : ∀ q ∈ ps, 1 ≤ q ∧ q ≤ n) : ((positionsUpTo n).filter fun j => decide (j ∈ ps)).length = ps.length := by
  refine List.Perm.length_eq ((List.perm_ext_iff_of_nodup ((nodup_positionsUpTo n).filter _) hnodup).mpr fun j => ?_)
  rw [List.mem_filter, mem_positionsUpTo, decide_eq_true_iff]
  exact ⟨fun h => h.2, fun h => ⟨hps j h, h⟩⟩

/-- The data has as many positions of the SEC codeword as elements (R66). -/
theorem length_dataPositions (m : Nat) :
    ((positionsUpTo (m + parityCount m)).filter fun j =>
      decide (j ∉ parityPositions (parityCount m) (m + parityCount m))).length = m := by
  obtain ⟨_, hlen⟩ := clampNeverTriggersFromEncoder m
  obtain ⟨_, hascending, _⟩ := positionSequenceShape _ (.inl ⟨parityCount m, m + parityCount m, rfl⟩)
  have hparity : ((positionsUpTo (m + parityCount m)).filter fun j =>
      decide (j ∈ parityPositions (parityCount m) (m + parityCount m))).length = parityCount m := by
    rw [length_filter_mem_positionsUpTo (hascending.imp Nat.ne_of_lt) fun q hq => ?_, hlen]
    obtain ⟨k, _, rfl, hle⟩ := mem_parityPositions.mp hq
    exact ⟨Nat.one_le_two_pow, hle⟩
  have hsplit := List.length_eq_length_filter_add (l := positionsUpTo (m + parityCount m)) fun j =>
    decide (j ∈ parityPositions (parityCount m) (m + parityCount m))
  rw [hparity, length_positionsUpTo] at hsplit
  simp only [decide_not]
  omega

/-- Settles O26: the powers of two up to the codeword's length are those below `2^p`, which the encoder and the decoder
list alike. -/
theorem layoutOfSecCodeword : Obligations.LayoutOfSecCodeword := by
  unfold Obligations.LayoutOfSecCodeword
  rintro m p n rfl rfl
  have hlt : m + parityCount m < 2 ^ parityCount m := by
    have := (parityCount_spec m).1
    omega
  refine ⟨fun q => ?below, fun q => ?upTo, length_dataPositions m, fun cap hcap => ?decoder, fun hm => ?cap⟩
  case below =>
    rw [parityPositions_parityCount]
    simp only [List.mem_map, List.mem_range, eq_comm]
  case upTo =>
    rw [mem_parityPositions]
    exact ⟨fun ⟨k, _, h⟩ => ⟨k, h⟩,
      fun ⟨k, hq, hle⟩ => ⟨k, (Nat.pow_lt_pow_iff_right (by decide)).mp (hle.trans_lt hlt), hq, hle⟩⟩
  case decoder =>
    obtain ⟨more, rfl⟩ := Nat.exists_eq_add_of_le hcap
    exact powersUpTo_of_lt _ more (by rwa [Nat.zero_add])
  case cap =>
    refine parityCount_le_of_bound ?_
    rw [Config.parityIterCap]
    omega

/-- Settles O37: the walk cut at the length; each row of the table spans the lengths from one power of two to the
next. -/
theorem inferredPositionsOfLength : Obligations.InferredPositionsOfLength := by
  unfold Obligations.InferredPositionsOfLength
  refine ⟨fun cap len => ⟨?walk, length_powersUpTo_le len cap 0⟩, fun row hrow len hlow hhigh => ?table,
    fun cap c hc => by rw [analyzeWith_of_ne_nil cap hc]⟩
  case walk => rw [inferredPositions, powersUpTo_eq_takeWhile, List.range_eq_range']
  case table =>
    have hrows : ∀ row ∈ inferredRows, row.2.2.length ≤ Config.parityIterCap ∧
        (1 ≤ row.2.2.length → 2 ^ (row.2.2.length - 1) ≤ row.1) ∧ row.2.1 < 2 ^ row.2.2.length ∧
        (List.range row.2.2.length).map (2 ^ ·) = row.2.2 := by decide
    obtain ⟨hcap, hfirst, hlast, hmap⟩ := hrows row hrow
    exact (powersUpTo_eq_map_range hcap (fun h => (hfirst h).trans hlow) (hhigh.trans_lt hlast)).trans hmap

end Sys2Proof.Machine
end

section
/-! PROOFS. The syndrome, bit by bit and as an exclusive or, and what the cap does to it (R79, R80, R91). -/

namespace Sys2Proof.Machine

/-- The decoder's count at `2^k` is that of the positions with bit `k` that hold a 1 (R80). -/
theorem checkCount_secPart_two_pow (c : Bits) (k : Nat) :
    checkCount (secPart c) (2 ^ k) = (positionsUpTo (c.length - 1)).countP fun j => j.testBit k && bitAt c j := by
  rw [checkCount, length_secPart]
  refine List.countP_congr fun j hj => ?_
  rw [and_two_pow_ne_zero, bitAt_secPart (mem_positionsUpTo.mp hj).2]

/-- Each bit of the syndrome is a failed check at an inferred position (R80). -/
theorem testBit_analyzeWith_syndrome (cap : Nat) {c : Bits} (hc : c ≠ []) (k : Nat) :
    (analyzeWith cap c).syndrome.testBit k = (decide (2 ^ k ∈ inferredPositions cap (c.length - 1)) &&
      odd ((positionsUpTo (c.length - 1)).countP fun j => j.testBit k && bitAt c j)) := by
  rw [analyzeWith_of_ne_nil cap hc, ← checkCount_secPart_two_pow]
  exact (syndromeOf_spec _ _ _).2 k

/-- Settles O38: the syndrome's bits, with the count written as the length of a filter. -/
theorem syndromeBitsAreFailedChecks : Obligations.SyndromeBitsAreFailedChecks := by
  unfold Obligations.SyndromeBitsAreFailedChecks
  intro cap c k hc
  rw [testBit_analyzeWith_syndrome cap hc, List.countP_eq_length_filter, analyzeWith_of_ne_nil cap hc]
  rfl

/-- Bit `k` of an exclusive or of numbers says whether an odd number of them have bit `k`. -/
theorem testBit_foldl_xor (l : List Nat) (x k : Nat) :
    (l.foldl (fun x j => x ^^^ j) x).testBit k = xor (x.testBit k) (odd (l.countP (·.testBit k))) := by
  induction l generalizing x with
  | nil => simp
  | cons j l ih =>
    rw [List.foldl_cons, ih, Nat.testBit_xor, List.countP_cons, odd_add, Bool.xor_assoc, Bool.xor_comm (odd _)]
    cases j.testBit k <;> rfl

/-- Where the cap reaches the secPart, the syndrome is the exclusive or of the secPart positions that hold a 1
(R91). -/
theorem analyzeWith_syndrome_eq_foldl_xor {cap : Nat} {c : Bits} (hc : c ≠ []) (hcap : c.length - 1 < 2 ^ cap) :
    (analyzeWith cap c).syndrome =
      ((positionsUpTo (c.length - 1)).filter fun j => bitAt c j).foldl (fun x j => x ^^^ j) 0 := by
  refine Nat.eq_of_testBit_eq fun k => ?_
  rw [testBit_analyzeWith_syndrome cap hc, testBit_foldl_xor, Nat.zero_testBit, Bool.false_xor, List.countP_filter]
  by_cases hk : 2 ^ k ∈ inferredPositions cap (c.length - 1)
  · simp [hk]
  · have hnone : (positionsUpTo (c.length - 1)).countP (fun j => j.testBit k && bitAt c j) = 0 := by
      refine List.countP_eq_zero.mpr fun j hj hbit => hk ?_
      exact two_pow_mem_inferredPositions hcap (mem_positionsUpTo.mp hj).2 (Bool.and_eq_true_iff.mp hbit).1
    simp [hk, hnone]

/-- The syndrome is below twice the secPart's length, whose powers of two are the checks (R91). -/
theorem analyzeWith_syndrome_lt_two_mul (cap : Nat) {c : Bits} (h : 2 ≤ c.length) :
    (analyzeWith cap c).syndrome < 2 * (c.length - 1) := by
  have hc : c ≠ [] := List.ne_nil_of_length_pos (by omega)
  have hlt := analyzeWith_syndrome_lt cap c
  have hpos : (analyzeWith cap c).positions = inferredPositions cap (c.length - 1) := by
    rw [analyzeWith_of_ne_nil cap hc]
  rcases hp : (analyzeWith cap c).positions.length with _ | p
  · rw [hp] at hlt
    omega
  · have hmem : 2 ^ p ∈ inferredPositions cap (c.length - 1) :=
      two_pow_mem_powersUpTo.mpr (by rw [hpos] at hp; exact hp ▸ Nat.lt_succ_self p)
    obtain ⟨_, _, hj, hle⟩ := mem_inferredPositions.mp hmem
    rw [hp, Nat.pow_succ] at hlt
    omega

/-- Settles O39: the exclusive or, its bounds, and the flips one by one. -/
theorem syndromeIsXorOfOnes : Obligations.SyndromeIsXorOfOnes := by
  unfold Obligations.SyndromeIsXorOfOnes
  intro cap c hc hcap
  have hlen := List.length_pos_iff.mpr hc
  refine ⟨analyzeWith_syndrome_eq_foldl_xor hc hcap, fun j hj k hk => ?inferred,
    Nat.le_pred_of_lt (analyzeWith_syndrome_lt cap c),
    fun h => Nat.le_pred_of_lt (analyzeWith_syndrome_lt_two_mul cap h),
    fun h => Nat.le_of_lt_succ (analyzeWith_syndrome_lt_64 cap h),
    fun j h1 hj => ⟨analyzeWith_flipAt_syndrome hcap h1 hj, analyzeWith_flipAt_parityOdd cap h1 (by omega)⟩,
    analyzeWith_flipAt_length_syndrome cap c, analyzeWith_flipAt_parityOdd cap hlen le_rfl⟩
  rw [analyzeWith_of_ne_nil cap hc]
  exact two_pow_mem_inferredPositions hcap hj hk

/-- At the port `analyze` is the same under every cap of 6 or more (R79, I1). -/
theorem analyzeWith_of_six_le {cap : Nat} {c : Bits} (hcap : 6 ≤ cap) (hc : c.length ≤ 63) :
    analyzeWith cap c = analyzeWith 6 c := by
  by_cases h : c = []
  · subst h
    rfl
  · obtain ⟨more, rfl⟩ := Nat.exists_eq_add_of_le hcap
    have hpositions : inferredPositions (6 + more) (c.length - 1) = inferredPositions 6 (c.length - 1) :=
      powersUpTo_of_lt 6 more (by omega)
    rw [analyzeWith_of_ne_nil _ h, analyzeWith_of_ne_nil _ h, hpositions]

/-- `correct` reads its cap through `analyze` on sequences of its codeword's length only (R87). -/
theorem correctWith_congr {cap cap' : Nat} {c : Bits}
    (h : ∀ x : Bits, x.length = c.length → analyzeWith cap x = analyzeWith cap' x) :
    correctWith cap c = correctWith cap' c := by
  have hflip (S : Nat) : verifiedFlip cap c S = verifiedFlip cap' c S := by
    rw [verifiedFlip, verifiedFlip, h _ (length_flipAt c S)]
  rw [correctWith, correctWith, h c rfl]
  simp only [hflip]

/-- Settles O46: every cap of 6 or more, the block's 10 among them, acts as 6 does. -/
theorem capNeverShowsAtPort : Obligations.CapNeverShowsAtPort := by
  unfold Obligations.CapNeverShowsAtPort
  intro cap c hcap hc
  have hsame (x : Bits) (hx : x.length = c.length) : analyzeWith cap x = analyzeCodeword x :=
    (analyzeWith_of_six_le hcap (by omega)).trans (analyzeWith_of_six_le (by decide) (by omega)).symm
  exact ⟨hsame c rfl, correctWith_congr hsame⟩

end Sys2Proof.Machine
end

section
/-! PROOFS. The bits of a codeword: the data's own, the parity bits, and what neither depends on (R68, R70, R75, I12). -/

namespace Sys2Proof.Machine

/-- The parity positions of the SEC codeword of data of length `m` (R62). -/
abbrev secParityPositions (m : Nat) : List Nat := parityPositions (parityCount m) (m + parityCount m)

/-- The SEC codeword after step 2, before the parity bits are written (R68). -/
abbrev placedData (fill : Nat → Bit) (d : Bits) : Bits :=
  placeData (secParityPositions d.length) fill (positionsUpTo (d.length + parityCount d.length)) d

theorem mem_secParityPositions {m q : Nat} (hq : q ∈ secParityPositions m) : 1 ≤ q ∧ q ≤ m + parityCount m := by
  obtain ⟨k, _, rfl, hle⟩ := mem_parityPositions.mp hq
  exact ⟨Nat.one_le_two_pow, hle⟩

/-- Step 3 at the parity positions in any order: each holds the parity of the bits it covers, every other position is
unchanged (R70, R75). -/
theorem bitAt_foldl_writeParity_of_perm {d c : Bits} {ps : List Nat} (hps : ps.Perm (secParityPositions d.length))
    (hlen : c.length = d.length + parityCount d.length) (j : Nat) :
    bitAt (ps.foldl writeParity c) j = if j ∈ secParityPositions d.length then odd (coverCount c j) else bitAt c j := by
  rw [bitAt_foldl_writeParity ps c (fun q hq => hlen ▸ mem_secParityPositions (hps.mem_iff.mp hq))
    (fun q hq q' hq' => parityPositions_and_eq_zero (hps.mem_iff.mp hq) (hps.mem_iff.mp hq'))]
  simp only [hps.mem_iff]

/-- The bits of the SEC codeword, from those of the placed data (R70). -/
theorem bitAt_secCodeword_eq (fill : Nat → Bit) (d : Bits) (j : Nat) :
    bitAt (secCodeword fill d) j =
      if j ∈ secParityPositions d.length then odd (coverCount (placedData fill d) j) else bitAt (placedData fill d) j :=
  bitAt_foldl_writeParity_of_perm (List.Perm.refl _) (by simp) j

/-- The codeword has the SEC codeword's bits at its positions (R71). -/
theorem bitAt_codewordWith (fill : Nat → Bit) {d : Bits} {j : Nat} (hj : j ≤ d.length + parityCount d.length) :
    bitAt (codewordWith fill d) j = bitAt (secCodeword fill d) j :=
  bitAt_append_singleton _ _ (by rwa [length_secCodeword])

/-- The placed data read back at the positions that are not parity positions, in order (R68). -/
theorem map_bitAt_codewordOf (d : Bits) :
    ((positionsUpTo (d.length + parityCount d.length)).filter fun j =>
      decide (j ∉ secParityPositions d.length)).map (bitAt (codewordOf d)) = d := by
  have hread := placeData_readback (secParityPositions d.length) (fun _ => false)
    (positionsUpTo (d.length + parityCount d.length)) d (bitAt (placedData (fun _ => false) d))
    (by conv_lhs => rw [← map_bitAt_positionsUpTo (placeData _ _ _ _), length_placeData, length_positionsUpTo])
    (length_dataPositions d.length)
  refine (List.map_congr_left fun j hj => ?_).trans hread
  obtain ⟨hin, hdata⟩ := List.mem_filter.mp hj
  rw [codewordOf, bitAt_codewordWith _ (mem_positionsUpTo.mp hin).2, bitAt_secCodeword_eq,
    if_neg (of_decide_eq_true hdata)]

/-- Settles O31: the data is read back at the positions that are not parity positions, which the tables list. -/
theorem dataStandsInOrder : Obligations.DataStandsInOrder := by
  unfold Obligations.DataStandsInOrder
  refine ⟨map_bitAt_codewordOf, fun d c h => ?_⟩
  obtain ⟨_, rfl⟩ := encodeData_eq_ok h
  have hread := map_bitAt_codewordOf d
  refine ⟨fun hm => ?_, fun hm => ?_, fun hm => ?_⟩
  all_goals
    rw [hm] at hread
    exact hread

/-- What a parity position is allocated with shows there only (R68, I12). -/
theorem placeData_eq_zipWith (ps : List Nat) (fill : Nat → Bit) (js : List Nat) (d : Bits) :
    placeData ps fill js d =
      List.zipWith (fun j b => if j ∈ ps then fill j else b) js (placeData ps (fun _ => false) js d) := by
  induction js generalizing d with
  | nil => rfl
  | cons j js ih =>
    rw [placeData, placeData]
    by_cases hj : j ∈ ps
    · simp only [if_pos hj, List.zipWith_cons_cons, ← ih]
    · simp only [if_neg hj, List.zipWith_cons_cons, ← ih]

/-- The placed data at a position that is not a parity position does not depend on the allocation (R68, I12). -/
theorem bitAt_placedData_of_not_mem (fill : Nat → Bit) {d : Bits} {j : Nat} (hj : j ∉ secParityPositions d.length) :
    bitAt (placedData fill d) j = bitAt (placedData (fun _ => false) d) j := by
  cases j with
  | zero => rfl
  | succ k =>
    unfold placedData
    rw [placeData_eq_zipWith _ fill]
    simp only [bitAt_succ, List.getD_eq_getElem?_getD, List.getElem?_zipWith]
    by_cases hk : k < d.length + parityCount d.length
    · simp [positionsUpTo, hk, Nat.add_comm 1 k, hj]
    · simp [hk]

/-- The allocated bits are never covered by another parity position, and each is overwritten (R68, R70, I12). -/
theorem secCodeword_eq (fill : Nat → Bit) (d : Bits) : secCodeword fill d = secCodeword (fun _ => false) d := by
  refine ext_bitAt (by simp) fun j _ _ => ?_
  rw [bitAt_secCodeword_eq, bitAt_secCodeword_eq]
  by_cases hj : j ∈ secParityPositions d.length
  · rw [if_pos hj, if_pos hj]
    refine congrArg odd (coverCount_congr (by simp) j fun i _ _ hne hcover => ?_)
    exact bitAt_placedData_of_not_mem fill fun hi => hcover (parityPositions_and_eq_zero hi hj hne)
  · rw [if_neg hj, if_neg hj, bitAt_placedData_of_not_mem fill hj]

/-- Settles O34: the SEC codeword does not depend on the allocation, and step 4 reads the SEC codeword. -/
theorem allocatedBitsNeverShow : Obligations.AllocatedBitsNeverShow := by
  unfold Obligations.AllocatedBitsNeverShow
  intro fill d
  rw [codewordOf, codewordWith, codewordWith, secCodeword_eq]

end Sys2Proof.Machine
end

section
/-! PROOFS. `encode` is linear over GF(2), step by step (R75). -/

namespace Sys2Proof.Machine

@[simp] theorem length_xorBits {a b : Bits} (h : a.length = b.length) : (xorBits a b).length = a.length := by
  rw [xorBits, List.length_zipWith, h, Nat.min_self]

/-- Step 2 is linear (R68). -/
theorem placeData_xorBits (ps js : List Nat) {a b : Bits} (h : a.length = b.length) :
    placeData ps (fun _ => false) js (xorBits a b) =
      xorBits (placeData ps (fun _ => false) js a) (placeData ps (fun _ => false) js b) := by
  induction js generalizing a b with
  | nil => rfl
  | cons j js ih =>
    have hhead : (xorBits a b).headD false = xor (a.headD false) (b.headD false) := by
      cases a <;> cases b <;> simp [xorBits] at h ⊢
    have htail : (xorBits a b).tail = xorBits a.tail b.tail := List.tail_zipWith
    rw [placeData, placeData, placeData, hhead, htail]
    split
    · rw [ih h]; rfl
    · rw [ih (by simp [h])]; rfl

/-- The count of step 3 is linear in parity (R70). -/
theorem odd_coverCount_xorBits {a b : Bits} (h : a.length = b.length) (q : Nat) :
    odd (coverCount (xorBits a b) q) = xor (odd (coverCount a q)) (odd (coverCount b q)) := by
  rw [coverCount, coverCount, coverCount, length_xorBits h, ← h, ← odd_countP_xor]
  simp only [bitAt_xorBits h]

/-- The SEC codeword is linear (R75). -/
theorem secCodeword_xorBits {a b : Bits} (h : a.length = b.length) :
    secCodeword (fun _ => false) (xorBits a b) =
      xorBits (secCodeword (fun _ => false) a) (secCodeword (fun _ => false) b) := by
  have hl := length_xorBits h
  refine ext_bitAt (by simp [h]) fun j _ _ => ?_
  have hplaced : placedData (fun _ => false) (xorBits a b) =
      xorBits (placedData (fun _ => false) a) (placedData (fun _ => false) b) := by
    rw [placedData, placedData, placedData, hl, ← h]
    exact placeData_xorBits _ _ h
  rw [bitAt_xorBits (by simp [h]), bitAt_secCodeword_eq, bitAt_secCodeword_eq, bitAt_secCodeword_eq, hplaced,
    odd_coverCount_xorBits (by simp [h]), bitAt_xorBits (by simp [h]), hl, ← h]
  split <;> rfl

/-- Step 4 is linear (R71). -/
theorem appendOverall_xorBits {a b : Bits} (h : a.length = b.length) :
    appendOverall (xorBits a b) = xorBits (appendOverall a) (appendOverall b) := by
  have hones : odd (ones (xorBits a b)) = xor (odd (ones a)) (odd (ones b)) := by
    have := odd_countP_xor (positionsUpTo a.length) (fun _ => true) (bitAt a) (bitAt b)
    simp only [Bool.true_and, ← bitAt_xorBits h] at this
    rw [← countP_bitAt, ← countP_bitAt a, ← countP_bitAt b, length_xorBits h, ← h]
    exact this
  rw [appendOverall, hones, xorBits, xorBits, appendOverall, appendOverall, List.zipWith_append h]
  rfl

/-- The codeword is linear (R75). -/
theorem codewordOf_xorBits {a b : Bits} (h : a.length = b.length) :
    codewordOf (xorBits a b) = xorBits (codewordOf a) (codewordOf b) := by
  rw [codewordOf, codewordWith, secCodeword_xorBits h, appendOverall_xorBits (by simp [h])]
  rfl

/-- Settles O35: step 3 depends only on which positions it writes; every step is linear; and all-zero data has the
all-zero codeword. -/
theorem encodeIsLinear : Obligations.EncodeIsLinear := by
  unfold Obligations.EncodeIsLinear
  refine ⟨fun d ps hps => ?order, fun a b ca cb hlen ha hb => ?linear, fun d c h hd => ?zero⟩
  case order =>
    refine ext_bitAt (by simp) fun j _ _ => ?_
    rw [bitAt_foldl_writeParity_of_perm hps (by simp), bitAt_secCodeword_eq]
  case linear =>
    obtain ⟨hsupported, rfl⟩ := encodeData_eq_ok ha
    obtain ⟨_, rfl⟩ := encodeData_eq_ok hb
    rw [encodeData_of_supported (by rwa [Supported, length_xorBits hlen]), codewordOf_xorBits hlen]
  case zero =>
    obtain ⟨_, rfl⟩ := encodeData_eq_ok h
    rw [List.eq_replicate_of_mem hd, codewordOf_zeros]
    exact fun x hx => List.eq_of_mem_replicate hx

end Sys2Proof.Machine
end

section
/-! PROOFS. The parity bits as exclusive ors of data elements: the tables of R70 and R71. -/

namespace Sys2Proof.Machine

open Sys2Proof.SpecTables

/-- The exclusive or of chosen data elements is the parity of those that are 1. -/
theorem xorAt_eq_odd_countP (d : Bits) (is : List Nat) : xorAt d is = odd (is.countP fun i => d.getD i false) := by
  induction is using List.reverseRecOn with
  | nil => rfl
  | append_singleton is i ih =>
    have hlast : xorAt d (is ++ [i]) = xor (xorAt d is) (d.getD i false) := by
      rw [xorAt, List.foldl_append]
      rfl
    rw [hlast, ih, List.countP_append, odd_add, List.countP_singleton]
    cases d.getD i false <;> rfl

theorem xorAt_append (d : Bits) (is is' : List Nat) : xorAt d (is ++ is') = xor (xorAt d is) (xorAt d is') := by
  simp only [xorAt_eq_odd_countP, List.countP_append, odd_add]

/-- The order of the indices is immaterial, and an index that stands twice drops out. -/
theorem xorAt_of_perm_append_twice (d : Bits) {is is' twice : List Nat} (h : is.Perm (is' ++ (twice ++ twice))) :
    xorAt d is = xorAt d is' := by
  have hperm : xorAt d is = xorAt d (is' ++ (twice ++ twice)) := by
    rw [xorAt_eq_odd_countP, xorAt_eq_odd_countP, h.countP_eq]
  rw [hperm, xorAt_append, xorAt_append, Bool.xor_self, Bool.xor_false]

/-- Where the data is read at the positions `dp`, the exclusive or of data elements is the parity of their positions. -/
theorem xorAt_eq_odd_countP_bitAt {d c : Bits} {dp : List Nat} (hread : dp.map (bitAt c) = d) (is : List Nat) :
    xorAt d is = odd ((is.map (dp.getD · 0)).countP (bitAt c)) := by
  have hbit (i : Nat) : d.getD i false = bitAt c (dp.getD i 0) := by
    rw [← hread, ← bitAt_zero c, List.getD_map]
  rw [xorAt_eq_odd_countP, List.countP_map]
  simp only [hbit]
  rfl

/-- Each parity bit is the parity of the other SEC positions it covers (R70). -/
theorem bitAt_codewordOf_parity {d : Bits} {q : Nat} (hq : q ∈ secParityPositions d.length) :
    bitAt (codewordOf d) q = odd ((positionsUpTo (d.length + parityCount d.length)).countP
      fun j => j != q && (j &&& q != 0) && bitAt (codewordOf d) j) := by
  have hbits (j : Nat) (hj : j ≤ d.length + parityCount d.length) :
      bitAt (codewordOf d) j = bitAt (secCodeword (fun _ => false) d) j := bitAt_codewordWith _ hj
  rw [hbits q (mem_secParityPositions hq).2, bitAt_secCodeword _ hq, coverCount, length_secCodeword]
  refine congrArg odd (List.countP_congr fun j hj => ?_)
  rw [hbits j (mem_positionsUpTo.mp hj).2]

/-- A table of R70 fits a layout: each row's first entry is a parity position, and it covers, itself aside, the
positions of the row's data elements. -/
def IsParityTable (m : Nat) (dp : List Nat) (rows : List (Nat × List Nat)) : Prop :=
  ∀ row ∈ rows, row.1 ∈ secParityPositions m ∧
    (positionsUpTo (m + parityCount m)).filter (fun j => j != row.1 && (j &&& row.1 != 0)) = row.2.map (dp.getD · 0)

theorem isParityTable8 : IsParityTable 8 dataPositions8 parityRows8 := by
  unfold IsParityTable
  decide

theorem isParityTable16 : IsParityTable 16 dataPositions16 parityRows16 := by
  unfold IsParityTable
  decide +kernel

theorem isParityTable32 : IsParityTable 32 dataPositions32 parityRows32 := by
  unfold IsParityTable
  decide +kernel

/-- The parity bit of each row of a table is the exclusive or of the row's data elements (R70). -/
theorem IsParityTable.bitAt_eq_xorAt {d : Bits} {dp : List Nat} {rows : List (Nat × List Nat)}
    (h : IsParityTable d.length dp rows) (hread : dp.map (bitAt (codewordOf d)) = d) :
    ∀ row ∈ rows, bitAt (codewordOf d) row.1 = xorAt d row.2 := by
  intro row hrow
  obtain ⟨hparity, hcover⟩ := h row hrow
  rw [bitAt_codewordOf_parity hparity, xorAt_eq_odd_countP_bitAt hread, ← hcover, List.countP_filter]
  simp only [Bool.and_comm]

/-- Settles O32: the parity bits cover the data positions that the tables list. -/
theorem parityBitsOfCodeword : Obligations.ParityBitsOfCodeword := by
  unfold Obligations.ParityBitsOfCodeword
  intro d c h
  obtain ⟨_, htables⟩ := dataStandsInOrder
  obtain ⟨hread8, hread16, hread32⟩ := htables d c h
  obtain ⟨_, rfl⟩ := encodeData_eq_ok h
  exact ⟨fun q hq => bitAt_codewordOf_parity hq,
    fun hm => IsParityTable.bitAt_eq_xorAt (hm ▸ isParityTable8) (hread8 hm),
    fun hm => IsParityTable.bitAt_eq_xorAt (hm ▸ isParityTable16) (hread16 hm),
    fun hm => IsParityTable.bitAt_eq_xorAt (hm ▸ isParityTable32) (hread32 hm)⟩

/-- The overall bit is the parity of the SEC codeword (R71). -/
theorem overallBit_codewordOf (d : Bits) : overallBit (codewordOf d) = odd (ones (secPart (codewordOf d))) := by
  rw [codewordOf, secPart_codewordWith, codewordWith, appendOverall, overallBit, List.length_append,
    List.length_singleton, bitAt_succ, List.getD_eq_getElem?_getD, List.getElem?_concat_length, Option.getD_some]

/-- The overall bit is the parity of the 1-bits at the SEC positions (R71). -/
theorem overallBit_codewordOf_eq_odd_countP (d : Bits) :
    overallBit (codewordOf d) =
      odd ((positionsUpTo (d.length + parityCount d.length)).countP (bitAt (codewordOf d))) := by
  have hlen : (secPart (codewordOf d)).length = d.length + parityCount d.length := by
    rw [length_secPart, codewordOf, length_codewordWith, Nat.add_sub_cancel]
  rw [overallBit_codewordOf, ← countP_bitAt, hlen]
  refine congrArg odd (List.countP_congr fun j hj => ?_)
  rw [bitAt_secPart (by rw [← length_secPart, hlen]; exact (mem_positionsUpTo.mp hj).2)]

/-- The parity of the bits at a table's parity positions is the exclusive or of all the rows' data elements. -/
theorem odd_countP_parityPositions {d c : Bits} {rows : List (Nat × List Nat)}
    (h : ∀ row ∈ rows, bitAt c row.1 = xorAt d row.2) :
    odd ((rows.map (·.1)).countP (bitAt c)) = xorAt d (rows.flatMap (·.2)) := by
  induction rows with
  | nil => rfl
  | cons row rows ih =>
    rw [List.map_cons, List.countP_cons, odd_add, ih fun r hr => h r (by simp [hr]), List.flatMap_cons, xorAt_append,
      ← h row (by simp), Bool.xor_comm]
    cases bitAt c row.1 <;> rfl

/-- Every data index once, and again for each parity bit that covers it. -/
def overallIndices (m : Nat) (rows : List (Nat × List Nat)) : List Nat := List.range m ++ rows.flatMap (·.2)

/-- Each index below `m` half as often as it stands in the list, rounded down. -/
def halfCounted (m : Nat) (is : List Nat) : List Nat :=
  (List.range m).flatMap fun i => List.replicate (is.count i / 2) i

/-- A row of R71 fits a layout: the SEC positions are the data and the parity positions, and the row keeps the data
indices that stand an odd number of times in them all. -/
def IsOverallRow (m : Nat) (dp : List Nat) (rows : List (Nat × List Nat)) (is : List Nat) : Prop :=
  (positionsUpTo (m + parityCount m)).Perm ((List.range m).map (dp.getD · 0) ++ rows.map (·.1)) ∧
  (overallIndices m rows).Perm
    (is ++ (halfCounted m (overallIndices m rows) ++ halfCounted m (overallIndices m rows)))

/-- The overall bit is the exclusive or of the data elements of its row (R71). -/
theorem IsOverallRow.overallBit_eq_xorAt {d : Bits} {dp is : List Nat} {rows : List (Nat × List Nat)}
    (h : IsOverallRow d.length dp rows is) (hread : dp.map (bitAt (codewordOf d)) = d)
    (hrows : ∀ row ∈ rows, bitAt (codewordOf d) row.1 = xorAt d row.2) : overallBit (codewordOf d) = xorAt d is := by
  obtain ⟨hpositions, hindices⟩ := h
  rw [← xorAt_of_perm_append_twice d hindices, overallIndices, xorAt_append, xorAt_eq_odd_countP_bitAt hread,
    ← odd_countP_parityPositions hrows, ← odd_add, ← List.countP_append, ← hpositions.countP_eq,
    overallBit_codewordOf_eq_odd_countP]

theorem isOverallRow8 : IsOverallRow 8 dataPositions8 parityRows8 [0, 1, 2, 4, 5, 7] := by
  unfold IsOverallRow
  decide +kernel

theorem isOverallRow16 : IsOverallRow 16 dataPositions16 parityRows16 [0, 1, 2, 4, 5, 7, 10, 11, 12, 14] := by
  unfold IsOverallRow
  decide +kernel

theorem isOverallRow32 : IsOverallRow 32 dataPositions32 parityRows32
    [0, 1, 2, 4, 5, 7, 10, 11, 12, 14, 17, 18, 21, 23, 24, 26, 27, 29] := by
  unfold IsOverallRow
  decide +kernel

/-- Settles O33: the last bit is the parity of the bits before it, which the tables of R68 and R70 give as data
elements. -/
theorem overallParityBitOfCodeword : Obligations.OverallParityBitOfCodeword := by
  unfold Obligations.OverallParityBitOfCodeword
  intro d c h
  obtain ⟨_, htables⟩ := dataStandsInOrder
  obtain ⟨hread8, hread16, hread32⟩ := htables d c h
  obtain ⟨_, hrows8, hrows16, hrows32⟩ := parityBitsOfCodeword d c h
  obtain ⟨_, rfl⟩ := encodeData_eq_ok h
  refine ⟨overallBit_codewordOf d, ?even, fun row hrow hm => ?table⟩
  case even =>
    have heven : odd (ones (codewordOf d)) = false := by
      have := analyzeWith_codewordWith_parityOdd 0 (fun _ => false) d
      rwa [analyzeWith_parityOdd] at this
    have := of_decide_eq_false heven
    omega
  case table =>
    simp only [overallRows, List.mem_cons, List.not_mem_nil, or_false] at hrow
    rcases hrow with rfl | rfl | rfl
    · exact IsOverallRow.overallBit_eq_xorAt (hm ▸ isOverallRow8) (hread8 hm) (hrows8 hm)
    · exact IsOverallRow.overallBit_eq_xorAt (hm ▸ isOverallRow16) (hread16 hm) (hrows16 hm)
    · exact IsOverallRow.overallBit_eq_xorAt (hm ▸ isOverallRow32) (hread32 hm) (hrows32 hm)

end Sys2Proof.Machine
end

section
/-! PROOFS. Flips of an encoded codeword: none, one, two, three and four (R74, R93 to R95). -/

namespace Sys2Proof.Machine

/-- Settles O47: the codeword of any data checks clean, and `correct` branches on the two checks. -/
theorem encodedVectorChecksClean : Obligations.EncodedVectorChecksClean := by
  unfold Obligations.EncodedVectorChecksClean
  intro d c h
  obtain ⟨_, rfl⟩ := encodeData_eq_ok h
  have hS := analyzeWith_codewordWith_syndrome Config.parityIterCap (fun _ => false) d
  have hP := analyzeWith_codewordWith_parityOdd Config.parityIterCap (fun _ => false) d
  exact ⟨hS, hP, correctWith_of_clean (codewordWith_ne_nil _ d) hS hP⟩

/-- The cap reaches the secPart of every codeword that `encode` answers (R69, R79). -/
theorem length_pred_lt_of_encodeData {d c : Bits} (h : encodeData d = .ok c) :
    c.length - 1 < 2 ^ Config.parityIterCap := by
  obtain ⟨_, _, _, _, hmax⟩ := codewordLength d c h
  rw [Config.maxCwLen] at hmax
  rw [Config.parityIterCap]
  omega

/-- What a flip at a position of a codeword of length `n` adds to the syndrome: the position, and nothing at the
overall bit (R91). -/
def syndromeOfFlip (n i : Nat) : Nat := if i = n then 0 else i

/-- One flip, in the secPart or at the overall bit, in the syndrome (R91). -/
theorem analyzeWith_flipAt_syndrome_eq {cap i : Nat} {c : Bits} (hcap : c.length - 1 < 2 ^ cap) (hi : 1 ≤ i)
    (hl : i ≤ c.length) :
    (analyzeWith cap (flipAt c i)).syndrome = (analyzeWith cap c).syndrome ^^^ syndromeOfFlip c.length i := by
  unfold syndromeOfFlip
  split
  case isTrue hlast => rw [hlast, analyzeWith_flipAt_length_syndrome, Nat.xor_zero]
  case isFalse hinside => exact analyzeWith_flipAt_syndrome hcap hi (by omega)

/-- The syndrome after flips at a list of positions, from the syndrome before. -/
def syndromeAfterFlips (n S : Nat) (is : List Nat) : Nat := is.foldl (fun S i => S ^^^ syndromeOfFlip n i) S

@[simp] theorem length_foldl_flipAt (is : List Nat) (c : Bits) : (is.foldl flipAt c).length = c.length := by
  induction is generalizing c with
  | nil => rfl
  | cons i is ih => rw [List.foldl_cons, ih, length_flipAt]

section Flips

variable {cap : Nat} {c : Bits} {is : List Nat}

/-- Each flip adds to the syndrome (R91). -/
theorem analyzeWith_foldl_flipAt_syndrome (hcap : c.length - 1 < 2 ^ cap) (his : ∀ i ∈ is, 1 ≤ i ∧ i ≤ c.length) :
    (analyzeWith cap (is.foldl flipAt c)).syndrome = syndromeAfterFlips c.length (analyzeWith cap c).syndrome is := by
  induction is generalizing c with
  | nil => rfl
  | cons i is ih =>
    obtain ⟨hi, hl⟩ := his i (by simp)
    rw [List.foldl_cons, ih (by rwa [length_flipAt]) fun j hj => by rw [length_flipAt]; exact his j (by simp [hj]),
      analyzeWith_flipAt_syndrome_eq hcap hi hl, length_flipAt]
    rfl

/-- Each flip turns the parity (R91). -/
theorem analyzeWith_foldl_flipAt_parityOdd (his : ∀ i ∈ is, 1 ≤ i ∧ i ≤ c.length) :
    (analyzeWith cap (is.foldl flipAt c)).parityOdd = xor (analyzeWith cap c).parityOdd (odd is.length) := by
  induction is generalizing c with
  | nil => simp
  | cons i is ih =>
    obtain ⟨hi, hl⟩ := his i (by simp)
    rw [List.foldl_cons, ih fun j hj => by rw [length_flipAt]; exact his j (by simp [hj]),
      analyzeWith_flipAt_parityOdd cap hi hl, List.length_cons, odd_add]
    cases (analyzeWith cap c).parityOdd <;> cases odd is.length <;> rfl

/-- After flips at distinct positions exactly those positions are inverted (R13). -/
theorem bitAt_foldl_flipAt (hnodup : is.Nodup) (his : ∀ i ∈ is, 1 ≤ i ∧ i ≤ c.length) (j : Nat) :
    bitAt (is.foldl flipAt c) j = xor (bitAt c j) (decide (j ∈ is)) := by
  induction is generalizing c with
  | nil => simp
  | cons i is ih =>
    obtain ⟨hi, hl⟩ := his i (by simp)
    obtain ⟨hnew, hrest⟩ := List.nodup_cons.mp hnodup
    rw [List.foldl_cons, ih hrest fun j hj => by rw [length_flipAt]; exact his j (by simp [hj]), bitAt_flipAt hi hl]
    by_cases hj : j = i
    · subst hj
      simp [hnew]
    · simp [hj]

/-- A single flip does not undo flips at distinct positions of which there are two or more. -/
theorem flipAt_foldl_flipAt_ne {i i' j : Nat} (hnodup : is.Nodup) (his : ∀ i ∈ is, 1 ≤ i ∧ i ≤ c.length) (hi : i ∈ is)
    (hi' : i' ∈ is) (hne : i ≠ i') (hj : 1 ≤ j) (hjl : j ≤ c.length) : flipAt (is.foldl flipAt c) j ≠ c := by
  obtain ⟨k, hk, hkj⟩ : ∃ k ∈ is, k ≠ j := by
    by_cases h : i = j
    · exact ⟨i', hi', fun h' => hne (h.trans h'.symm)⟩
    · exact ⟨i, hi, h⟩
  intro heq
  have hbit : bitAt (flipAt (is.foldl flipAt c) j) k = !bitAt c k := by
    rw [bitAt_flipAt hj (by rwa [length_foldl_flipAt]), if_neg hkj, bitAt_foldl_flipAt hnodup his]
    simp [hk]
  rw [heq] at hbit
  simp at hbit

end Flips

/-- Settles O48: the flip is undone, and it alone is in the syndrome. -/
theorem singleErrorIsCorrected : Obligations.SingleErrorIsCorrected := by
  unfold Obligations.SingleErrorIsCorrected
  intro d c i h hi hl
  have hreach := length_pred_lt_of_encodeData h
  obtain ⟨hS, _, _⟩ := encodedVectorChecksClean d c h
  have hsyn : (analyzeCodeword (flipAt c i)).syndrome = syndromeOfFlip c.length i := by
    rw [analyzeCodeword, analyzeWith_flipAt_syndrome_eq hreach hi hl, ← analyzeCodeword, hS, Nat.zero_xor]
  refine ⟨?corrected, fun hlt => by rw [hsyn, syndromeOfFlip, if_neg hlt.ne],
    fun hlast => by rw [hsyn, syndromeOfFlip, if_pos hlast]⟩
  obtain ⟨_, rfl⟩ := encodeData_eq_ok h
  exact correctWith_flipAt_codewordWith _ hreach hi hl

/-- The classification of a codeword of length `n` after `k` flips that leave syndrome `S` (R85 to R89, R92). -/
def outcomeOfFlips (n k S : Nat) : Classification :=
  if odd k then if S ≤ n - 1 then .singleErrorCorrected else .uncorrectable
  else if S = 0 then .noError else .doubleErrorDetected

theorem outcomeOfFlips_of_odd {k : Nat} (hk : odd k = true) (n S : Nat) :
    outcomeOfFlips n k S = if S ≤ n - 1 then .singleErrorCorrected else .uncorrectable := by
  rw [outcomeOfFlips, if_pos hk]

theorem outcomeOfFlips_of_even {k : Nat} (hk : odd k = false) (n S : Nat) :
    outcomeOfFlips n k S = if S = 0 then .noError else .doubleErrorDetected := by
  rw [outcomeOfFlips, hk, if_neg Bool.false_ne_true]

/-- What `analyze` and `correct` find after `k` flips of an encoded codeword (R94, R95). -/
theorem analyzeCodeword_foldl_flipAt {d c : Bits} {is : List Nat} {k : Nat} (h : encodeData d = .ok c)
    (hlen : is.length = k) (his : ∀ i ∈ is, 1 ≤ i ∧ i ≤ c.length) :
    (analyzeCodeword (is.foldl flipAt c)).syndrome = syndromeAfterFlips c.length 0 is ∧
    (analyzeCodeword (is.foldl flipAt c)).parityOdd = odd k ∧
    (correctCodeword (is.foldl flipAt c)).classification =
      outcomeOfFlips c.length k (analyzeCodeword (is.foldl flipAt c)).syndrome := by
  obtain ⟨hS, hP, _⟩ := encodedVectorChecksClean d c h
  have hodd : (analyzeCodeword (is.foldl flipAt c)).parityOdd = odd k := by
    rw [analyzeCodeword, analyzeWith_foldl_flipAt_parityOdd his, ← analyzeCodeword, hP, Bool.false_xor, hlen]
  have hne : is.foldl flipAt c ≠ [] := by
    obtain ⟨hlen, _⟩ := codewordLength d c h
    exact List.ne_nil_of_length_pos (by rw [length_foldl_flipAt]; omega)
  refine ⟨?syndrome, hodd, ?outcome⟩
  case syndrome =>
    rw [analyzeCodeword, analyzeWith_foldl_flipAt_syndrome (length_pred_lt_of_encodeData h) his, ← analyzeCodeword, hS]
  case outcome =>
    cases hk : odd k with
    | false =>
      rw [outcomeOfFlips_of_even hk]
      exact correctWith_classification_of_even hne (hodd.trans hk)
    | true =>
      rw [outcomeOfFlips_of_odd hk, ← length_foldl_flipAt is c]
      exact correctWith_classification_of_odd hne (hodd.trans hk)

/-- Settles O49: two flips leave even parity, and a syndrome that is 0 only if they are at one position. -/
theorem doubleErrorIsDetected : Obligations.DoubleErrorIsDetected := by
  unfold Obligations.DoubleErrorIsDetected
  intro d c i i' h hi hlt hl
  have his : ∀ j ∈ [i, i'], 1 ≤ j ∧ j ≤ c.length := by
    simp only [List.mem_cons, List.not_mem_nil, or_false, forall_eq_or_imp, forall_eq]
    omega
  obtain ⟨hsyn, hodd, _⟩ := analyzeCodeword_foldl_flipAt h rfl his
  have hS : (analyzeCodeword (flipAt (flipAt c i) i')).syndrome = i ^^^ syndromeOfFlip c.length i' := by
    refine hsyn.trans ?_
    simp only [syndromeAfterFlips, List.foldl_cons, List.foldl_nil, Nat.zero_xor]
    rw [syndromeOfFlip, if_neg (by omega)]
  have hP : (analyzeCodeword (flipAt (flipAt c i) i')).parityOdd = false :=
    hodd.trans (by decide : odd 2 = false)
  have hinside (hin : i' < c.length) : (analyzeCodeword (flipAt (flipAt c i) i')).syndrome = i ^^^ i' := by
    rw [hS, syndromeOfFlip, if_neg hin.ne]
  have hlast (hend : i' = c.length) : (analyzeCodeword (flipAt (flipAt c i) i')).syndrome = i := by
    rw [hS, syndromeOfFlip, if_pos hend, Nat.xor_zero]
  have hne : (analyzeCodeword (flipAt (flipAt c i) i')).syndrome ≠ 0 := by
    rcases Nat.lt_or_eq_of_le hl with hin | hend
    · rw [hinside hin, Ne, Nat.xor_eq_zero_iff]
      omega
    · rw [hlast hend]
      omega
  have hnil : flipAt (flipAt c i) i' ≠ [] := List.ne_nil_of_length_pos (by rw [length_flipAt, length_flipAt]; omega)
  exact ⟨hP, hne, hinside, hlast, correctWith_of_double_error hnil hne hP⟩

/-- Settles O50: the outcomes of an odd and of an even number of flips; one flip more does not undo three. -/
theorem threeAndFourErrors : Obligations.ThreeAndFourErrors := by
  unfold Obligations.ThreeAndFourErrors
  intro d c h
  refine ⟨?three, ?four⟩
  case three =>
    rintro i₁ i₂ i₃ h1 h12 h23 hl c3 hc3
    replace hc3 : c3 = [i₁, i₂, i₃].foldl flipAt c := hc3
    have hthree : odd 3 = true := by decide
    have his : ∀ j ∈ [i₁, i₂, i₃], 1 ≤ j ∧ j ≤ c.length := by
      simp only [List.mem_cons, List.not_mem_nil, or_false, forall_eq_or_imp, forall_eq]
      omega
    have hnodup : [i₁, i₂, i₃].Nodup := by simp [h12.ne, h23.ne, (h12.trans h23).ne]
    obtain ⟨_, hodd, hclass⟩ := analyzeCodeword_foldl_flipAt (k := 3) h rfl his
    rw [← hc3, hthree] at hodd
    rw [← hc3, outcomeOfFlips_of_odd hthree] at hclass
    refine ⟨hodd, fun hin => ⟨hclass.trans (if_pos hin), ?miscorrected⟩,
      fun hpast => hclass.trans (if_neg (Nat.not_le_of_lt hpast))⟩
    rcases correctWith_cases Config.parityIterCap c3 with ⟨_, hkept⟩ | ⟨j, hj, hjl, hflip⟩
    · exact absurd (hclass.trans (if_pos hin)) hkept
    · rw [correctCodeword, hflip, hc3]
      rw [hc3, length_foldl_flipAt] at hjl
      exact flipAt_foldl_flipAt_ne hnodup his (by simp) (by simp) h12.ne hj hjl
  case four =>
    rintro i₁ i₂ i₃ i₄ h1 h12 h23 h34 hl c4 hc4
    replace hc4 : c4 = [i₁, i₂, i₃, i₄].foldl flipAt c := hc4
    have hfour : odd 4 = false := by decide
    have his : ∀ j ∈ [i₁, i₂, i₃, i₄], 1 ≤ j ∧ j ≤ c.length := by
      simp only [List.mem_cons, List.not_mem_nil, or_false, forall_eq_or_imp, forall_eq]
      omega
    obtain ⟨_, hodd, hclass⟩ := analyzeCodeword_foldl_flipAt (k := 4) h rfl his
    rw [← hc4, hfour] at hodd
    rw [← hc4, outcomeOfFlips_of_even hfour] at hclass
    exact ⟨hodd, fun hS => hclass.trans (if_neg hS), fun hS => hclass.trans (if_pos hS)⟩

end Sys2Proof.Machine
end

section
/-! PROOFS. How many sets of flips give each outcome: a count over syndromes (R95). -/

namespace Sys2Proof.Machine

/-- A set of `k` positions of a list has `k` elements, all of the list. -/
theorem mem_combinations {k : Nat} {l is : List Nat} (h : is ∈ combinations k l) :
    is.length = k ∧ ∀ i ∈ is, i ∈ l := by
  induction k, l using combinations.induct generalizing is with
  | case1 l =>
    rw [combinations, List.mem_singleton] at h
    subst h
    simp
  | case2 k => simp [combinations] at h
  | case3 k x xs ihx ih =>
    rw [combinations, List.mem_append, List.mem_map] at h
    rcases h with ⟨js, hjs, rfl⟩ | h
    · obtain ⟨hlen, hmem⟩ := ihx hjs
      exact ⟨by rw [List.length_cons, hlen], List.forall_mem_cons.mpr ⟨by simp, fun i hi => by simp [hmem i hi]⟩⟩
    · obtain ⟨hlen, hmem⟩ := ih h
      exact ⟨hlen, fun i hi => by simp [hmem i hi]⟩

/-- `f S`, with a case split on `S` before the call. The split makes the kernel compute `S` to a numeral first, so that
calls at equal syndromes are one term, whose value it computes once. -/
def callAtNumeral (f : Nat → Nat) (S : Nat) : Nat :=
  match S with
  | 0 => f 0
  | S + 1 => f (S + 1)

theorem callAtNumeral_eq (f : Nat → Nat) (S : Nat) : callAtNumeral f S = f S := by cases S <;> rfl

/-- The number of sets of `k` positions of a list whose flips take syndrome `S` to one that `p` accepts, in a codeword
of length `n`: a set has the list's first position or not. -/
def countFlips (n : Nat) (p : Nat → Bool) : (k S : Nat) → List Nat → Nat
  | 0, S, _ => (p S).toNat
  | _ + 1, _, [] => 0
  | k + 1, S, x :: xs =>
    callAtNumeral (fun S' => countFlips n p k S' xs) (S ^^^ syndromeOfFlip n x) + countFlips n p (k + 1) S xs

/-- `countFlips` counts the sets of R95. -/
theorem countP_combinations (n : Nat) (p : Nat → Bool) (k S : Nat) (l : List Nat) :
    (combinations k l).countP (fun is => p (syndromeAfterFlips n S is)) = countFlips n p k S l := by
  induction k, l using combinations.induct generalizing S with
  | case1 l =>
    rw [combinations, countFlips, List.countP_singleton, syndromeAfterFlips, List.foldl_nil]
    cases p S <;> rfl
  | case2 k => rfl
  | case3 k x xs ihx ih =>
    rw [combinations, List.countP_append, List.countP_map, ih, countFlips, callAtNumeral_eq, ← ihx]
    rfl

/-- The counts of R95 are counts over syndromes, the same for every codeword of one length. -/
theorem multiErrorCount_eq_countFlips {d c : Bits} (h : encodeData d = .ok c) (k : Nat) (cl : Classification) :
    multiErrorCount c k cl =
      countFlips c.length (fun S => decide (outcomeOfFlips c.length k S = cl)) k 0 (positionsUpTo c.length) := by
  rw [multiErrorCount, ← countP_combinations]
  refine List.countP_congr fun is his => ?_
  obtain ⟨hlen, hmem⟩ := mem_combinations his
  obtain ⟨hsyn, _, hclass⟩ := analyzeCodeword_foldl_flipAt h hlen fun i hi => mem_positionsUpTo.mp (hmem i hi)
  rw [hclass, hsyn]

/-- Settles O51: the codeword's length fixes the counts over syndromes, which are evaluated. -/
theorem multiErrorCounts : Obligations.MultiErrorCounts := by
  unfold Obligations.MultiErrorCounts
  intro d c h
  obtain ⟨_, h8, h16, h32, _⟩ := codewordLength d c h
  simp only [multiErrorCount_eq_countFlips h]
  refine ⟨fun hm => ?_, fun hm => ?_, fun hm => ?_⟩
  · rw [h8 hm]
    decide +kernel
  · rw [h16 hm]
    decide +kernel
  · rw [h32 hm]
    decide +kernel

end Sys2Proof.Machine
end
